-- ==== Sys2Proof/Word.lean ====
section
/-! DEFINITION. The word types of the block: 256-bit operands (R8), 32-bit bus words (R11),
12-bit window offsets (R61). Every value is unsigned (R12). -/

namespace Sys2Proof

/-- A data register, a coordinate, a curve parameter, a scalar or a digest: W = 256 bits (R8). -/
abbrev Word := BitVec 256

/-- A bus word and a command word: 32 bits (R11, R90). -/
abbrev BusWord := BitVec 32

/-- A byte offset into the register window, the 12 bits the block decodes (R61). -/
abbrev Offset := BitVec 12

/-- A byte of a digest as the hash gives it (R65). -/
abbrev Byte := BitVec 8

end Sys2Proof
end

