-- ==== Sys2Proof/Syntax.lean ====
section
/-! DEFINITION. The commands of MMCMD-1, one constructor per row of the opcode table (R96), with
the operand roles of R97. -/

namespace Sys2Proof

/-- The number of a data register, D0 to D15 (R22). -/
abbrev DReg := Fin 16

/-- The number of a point register, P0 to P15 (R24). -/
abbrev PReg := Fin 16

/-- The modulus a field command selects by its M bit: p for 0, n for 1 (R93). -/
inductive Modulus where
  | p
  | n
  deriving DecidableEq, Repr

/-- A command. Operands stand in the order of R102: destinations first, then sources. -/
inductive Instr where
  /-- R120 -/
  | nop
  /-- R122: D[rd] <- D[ra] + D[rb] -/
  | madd (m : Modulus) (rd ra rb : DReg)
  /-- R123: D[rd] <- D[ra] - D[rb] -/
  | msub (m : Modulus) (rd ra rb : DReg)
  /-- R124: D[rd] <- - D[ra] -/
  | mneg (m : Modulus) (rd ra : DReg)
  /-- R125: D[rd] <- D[ra] reduced -/
  | mred (m : Modulus) (rd ra : DReg)
  /-- R128: Montgomery product -/
  | montmul (m : Modulus) (rd ra rb : DReg)
  /-- R129: modular product -/
  | mmul (m : Modulus) (rd ra rb : DReg)
  /-- R130: into the Montgomery domain -/
  | tomont (m : Modulus) (rd ra : DReg)
  /-- R131: out of the Montgomery domain -/
  | frommont (m : Modulus) (rd ra : DReg)
  /-- R132: modular inverse -/
  | minv (m : Modulus) (rd ra : DReg)
  /-- R160: FLAG <- onCurve(D[rx], D[ry]) -/
  | pval (rx ry : DReg)
  /-- R163: P[pd] <- Aff(D[rx], D[ry]) -/
  | pload (pd : PReg) (rx ry : DReg)
  /-- R164: P[pd] <- INF -/
  | pinf (pd : PReg)
  /-- R165: P[pd] <- G -/
  | pgen (pd : PReg)
  /-- R166: P[pd] <- P[ps] -/
  | pmov (pd ps : PReg)
  /-- R167: D[rd] <- P[ps].x -/
  | pgetx (rd : DReg) (ps : PReg)
  /-- R168: D[rd] <- P[ps].y -/
  | pgety (rd : DReg) (ps : PReg)
  /-- R170: FLAG <- P[ps] is INF -/
  | pisinf (ps : PReg)
  /-- R171: FLAG <- P[ps] = P[qs] -/
  | peq (ps qs : PReg)
  /-- R173: P[pd] <- - P[ps] -/
  | pneg (pd ps : PReg)
  /-- R175: P[pd] <- P[ps] + P[qs] -/
  | padd (pd ps qs : PReg)
  /-- R177: P[pd] <- 2 P[ps] -/
  | pdbl (pd ps : PReg)
  /-- R201: P[pd] <- D[rk] P[ps] -/
  | pmul (pd : PReg) (rk : DReg) (ps : PReg)
  /-- R220: D[rd] <- private key, P[pd] <- public key -/
  | keygen (rd : DReg) (pd : PReg)
  /-- R222: P[pd] <- D[rk] G -/
  | pubkey (pd : PReg) (rk : DReg)
  /-- R228: D[rs] <- s, D[re] <- e, private key D[rk], digest D[rm] -/
  | sign (rs re rk rm : DReg)
  /-- R234: FLAG <- the signature (D[rs], D[re]) of digest D[rm] verifies under P[pk] -/
  | verify (pk : PReg) (rm rs re : DReg)
  deriving DecidableEq, Repr

end Sys2Proof
end

