-- ==== Sys2Proof/WellFormed.lean ====
section
/-! DEFINITION. Which commands can be written at all. Register numbers and the M bit are legal by
type; the one check left is SIGN's A ≠ D (R97, R98 (5)). -/

namespace Sys2Proof

/-- A command some legal word stands for: every one but SIGN with s and e in one register
(R98 (5)). -/
def Instr.wellFormed : Instr → Bool
  | .sign rs re _ _ => rs != re
  | .nop | .madd .. | .msub .. | .mneg .. | .mred .. | .montmul .. | .mmul .. | .tomont ..
  | .frommont .. | .minv .. | .pval .. | .pload .. | .pinf .. | .pgen .. | .pmov .. | .pgetx ..
  | .pgety .. | .pisinf .. | .peq .. | .pneg .. | .padd .. | .pdbl .. | .pmul .. | .keygen ..
  | .pubkey .. | .verify .. => true

end Sys2Proof
end

