-- ==== Sys2Proof/Decode.lean ====
section
/-! DEFINITION. Decoding and encoding of command words (R90 to R101). Decoding is total on 32-bit
words and rejects by name; the encoder is written from the same tables. -/

namespace Sys2Proof

/-- The assigned opcodes (R96). -/
inductive Opcode where
  | nop | madd | msub | mneg | mred | montmul | mmul | tomont | frommont | minv
  | pval | pload | pinf | pgen | pmov | pgetx | pgety | pisinf | peq | pneg | padd | pdbl | pmul
  | keygen | pubkey | sign | verify
  deriving DecidableEq, Repr

/-- The OPC value of an opcode (R96). -/
def Opcode.code : Opcode → Nat
  | .nop => 0x00
  | .madd => 0x01
  | .msub => 0x02
  | .mneg => 0x03
  | .mred => 0x04
  | .montmul => 0x08
  | .mmul => 0x09
  | .tomont => 0x0A
  | .frommont => 0x0B
  | .minv => 0x0C
  | .pval => 0x10
  | .pload => 0x11
  | .pinf => 0x12
  | .pgen => 0x13
  | .pmov => 0x14
  | .pgetx => 0x15
  | .pgety => 0x16
  | .pisinf => 0x17
  | .peq => 0x18
  | .pneg => 0x19
  | .padd => 0x1A
  | .pdbl => 0x1B
  | .pmul => 0x1C
  | .keygen => 0x20
  | .pubkey => 0x21
  | .sign => 0x22
  | .verify => 0x23

/-- The opcode an OPC value selects; the other 229 values are reserved (R91, R96). -/
def Opcode.ofCode : Nat → Option Opcode
  | 0x00 => some .nop
  | 0x01 => some .madd
  | 0x02 => some .msub
  | 0x03 => some .mneg
  | 0x04 => some .mred
  | 0x08 => some .montmul
  | 0x09 => some .mmul
  | 0x0A => some .tomont
  | 0x0B => some .frommont
  | 0x0C => some .minv
  | 0x10 => some .pval
  | 0x11 => some .pload
  | 0x12 => some .pinf
  | 0x13 => some .pgen
  | 0x14 => some .pmov
  | 0x15 => some .pgetx
  | 0x16 => some .pgety
  | 0x17 => some .pisinf
  | 0x18 => some .peq
  | 0x19 => some .pneg
  | 0x1A => some .padd
  | 0x1B => some .pdbl
  | 0x1C => some .pmul
  | 0x20 => some .keygen
  | 0x21 => some .pubkey
  | 0x22 => some .sign
  | 0x23 => some .verify
  | _ => none

/-- USES_M: the opcodes whose M column in R97 is M, the nine field commands (R93). -/
def Opcode.usesM : Opcode → Bool
  | .madd | .msub | .mneg | .mred | .montmul | .mmul | .tomont | .frommont | .minv => true
  | .nop | .pval | .pload | .pinf | .pgen | .pmov | .pgetx | .pgety | .pisinf | .peq | .pneg
  | .padd | .pdbl | .pmul | .keygen | .pubkey | .sign | .verify => false

/-- The opcodes whose A column in R97 names a register. -/
def Opcode.usesA : Opcode → Bool
  | .nop | .pval | .pisinf | .peq => false
  | .madd | .msub | .mneg | .mred | .montmul | .mmul | .tomont | .frommont | .minv | .pload
  | .pinf | .pgen | .pmov | .pgetx | .pgety | .pneg | .padd | .pdbl | .pmul | .keygen | .pubkey
  | .sign | .verify => true

/-- The opcodes whose B column in R97 names a register. -/
def Opcode.usesB : Opcode → Bool
  | .nop | .pinf | .pgen => false
  | .madd | .msub | .mneg | .mred | .montmul | .mmul | .tomont | .frommont | .minv | .pval
  | .pload | .pmov | .pgetx | .pgety | .pisinf | .peq | .pneg | .padd | .pdbl | .pmul | .keygen
  | .pubkey | .sign | .verify => true

/-- The opcodes whose C column in R97 names a register. -/
def Opcode.usesC : Opcode → Bool
  | .madd | .msub | .montmul | .mmul | .pval | .pload | .peq | .padd | .pmul | .sign
  | .verify => true
  | .nop | .mneg | .mred | .tomont | .frommont | .minv | .pinf | .pgen | .pmov | .pgetx | .pgety
  | .pisinf | .pneg | .pdbl | .keygen | .pubkey => false

/-- The opcodes whose D column in R97 names a register. -/
def Opcode.usesD : Opcode → Bool
  | .sign | .verify => true
  | .nop | .madd | .msub | .mneg | .mred | .montmul | .mmul | .tomont | .frommont | .minv | .pval
  | .pload | .pinf | .pgen | .pmov | .pgetx | .pgety | .pisinf | .peq | .pneg | .padd | .pdbl
  | .pmul | .keygen | .pubkey => false

/-- Why a word is illegal: the five conditions of R98. Each is ERRCODE 1 at completion (R251). -/
inductive DecodeError where
  /-- R98 (1): OPC is not assigned. -/
  | reservedOpcode
  /-- R98 (2): RSV is not 0. -/
  | rsvNotZero
  /-- R98 (3): M = 1 on an opcode that takes no modulus. -/
  | modulusBitSet
  /-- R98 (4): a field the opcode does not use is not 0. -/
  | unusedFieldNotZero
  /-- R98 (5): SIGN would write s and e to one register. -/
  | signSameDestination
  deriving DecidableEq, Repr

/-- OPC = word[31:24] (R90, R91). -/
def opcField (w : BusWord) : Nat := (w.extractLsb' 24 8).toNat

/-- A 4-bit register number, used unchanged as the index (R92, R95). -/
def regField (w : BusWord) (lo : Nat) : Fin 16 := Fin.ofNat 16 (w.extractLsb' lo 4).toNat

/-- A = word[23:20] (R90). -/
def fieldA (w : BusWord) : Fin 16 := regField w 20

/-- B = word[19:16] (R90). -/
def fieldB (w : BusWord) : Fin 16 := regField w 16

/-- C = word[15:12] (R90). -/
def fieldC (w : BusWord) : Fin 16 := regField w 12

/-- D = word[11:8] (R90). -/
def fieldD (w : BusWord) : Fin 16 := regField w 8

/-- M = word[7] (R90, R93). -/
def fieldM (w : BusWord) : Bool := w.getLsbD 7

/-- RSV = word[6:0] (R90, R94). -/
def fieldRsv (w : BusWord) : Nat := (w.extractLsb' 0 7).toNat

/-- The modulus the M bit selects: 0 is p, 1 is n (R93). -/
def modulusOf (m : Bool) : Modulus := if m then .n else .p

/-- The M bit of a modulus (R93). -/
def Modulus.bit : Modulus → Bool
  | .p => false
  | .n => true

/-- The command of an opcode with its fields in the roles of R97. -/
def instrOf (o : Opcode) (a b c d : Fin 16) (m : Modulus) : Instr :=
  match o with
  | .nop => .nop
  | .madd => .madd m a b c
  | .msub => .msub m a b c
  | .mneg => .mneg m a b
  | .mred => .mred m a b
  | .montmul => .montmul m a b c
  | .mmul => .mmul m a b c
  | .tomont => .tomont m a b
  | .frommont => .frommont m a b
  | .minv => .minv m a b
  | .pval => .pval b c
  | .pload => .pload a b c
  | .pinf => .pinf a
  | .pgen => .pgen a
  | .pmov => .pmov a b
  | .pgetx => .pgetx a b
  | .pgety => .pgety a b
  | .pisinf => .pisinf b
  | .peq => .peq b c
  | .pneg => .pneg a b
  | .padd => .padd a b c
  | .pdbl => .pdbl a b
  | .pmul => .pmul a b c
  | .keygen => .keygen a b
  | .pubkey => .pubkey a b
  | .sign => .sign a d b c
  | .verify => .verify b a c d

/-- A field whose entry in R97 is 0 is not 0 (R98 (4)). -/
def unusedFieldSet (o : Opcode) (a b c d : Fin 16) : Bool :=
  (!o.usesA && a != 0) || (!o.usesB && b != 0) || (!o.usesC && c != 0) || (!o.usesD && d != 0)

/-- Decode, in the order of R100. -/
def decode (w : BusWord) : Except DecodeError Instr :=
  match Opcode.ofCode (opcField w) with
  | none => .error .reservedOpcode
  | some o =>
    if fieldRsv w ≠ 0 then .error .rsvNotZero
    else if fieldM w && !o.usesM then .error .modulusBitSet
    else if unusedFieldSet o (fieldA w) (fieldB w) (fieldC w) (fieldD w) then
      .error .unusedFieldNotZero
    else if o = .sign ∧ fieldA w = fieldD w then .error .signSameDestination
    else .ok (instrOf o (fieldA w) (fieldB w) (fieldC w) (fieldD w) (modulusOf (fieldM w)))

/-- The word of R90: (OPC << 24) | (A << 20) | (B << 16) | (C << 12) | (D << 8) | (M << 7), as a
number. -/
def packWord (opc : Nat) (a b c d : Fin 16) (m : Bool) : BusWord :=
  BitVec.ofNat 32 (opc * 2 ^ 24 + a.val * 2 ^ 20 + b.val * 2 ^ 16 + c.val * 2 ^ 12 + d.val * 2 ^ 8
    + m.toNat * 2 ^ 7)

/-- The opcode of a command (R96). -/
def Instr.opcode : Instr → Opcode
  | .nop => .nop
  | .madd .. => .madd
  | .msub .. => .msub
  | .mneg .. => .mneg
  | .mred .. => .mred
  | .montmul .. => .montmul
  | .mmul .. => .mmul
  | .tomont .. => .tomont
  | .frommont .. => .frommont
  | .minv .. => .minv
  | .pval .. => .pval
  | .pload .. => .pload
  | .pinf .. => .pinf
  | .pgen .. => .pgen
  | .pmov .. => .pmov
  | .pgetx .. => .pgetx
  | .pgety .. => .pgety
  | .pisinf .. => .pisinf
  | .peq .. => .peq
  | .pneg .. => .pneg
  | .padd .. => .padd
  | .pdbl .. => .pdbl
  | .pmul .. => .pmul
  | .keygen .. => .keygen
  | .pubkey .. => .pubkey
  | .sign .. => .sign
  | .verify .. => .verify

/-- The word of a command, by the field roles of R97; unused fields are 0. -/
def encode (i : Instr) : BusWord :=
  match i with
  | .nop => packWord i.opcode.code 0 0 0 0 false
  | .madd m a b c => packWord i.opcode.code a b c 0 m.bit
  | .msub m a b c => packWord i.opcode.code a b c 0 m.bit
  | .mneg m a b => packWord i.opcode.code a b 0 0 m.bit
  | .mred m a b => packWord i.opcode.code a b 0 0 m.bit
  | .montmul m a b c => packWord i.opcode.code a b c 0 m.bit
  | .mmul m a b c => packWord i.opcode.code a b c 0 m.bit
  | .tomont m a b => packWord i.opcode.code a b 0 0 m.bit
  | .frommont m a b => packWord i.opcode.code a b 0 0 m.bit
  | .minv m a b => packWord i.opcode.code a b 0 0 m.bit
  | .pval b c => packWord i.opcode.code 0 b c 0 false
  | .pload a b c => packWord i.opcode.code a b c 0 false
  | .pinf a => packWord i.opcode.code a 0 0 0 false
  | .pgen a => packWord i.opcode.code a 0 0 0 false
  | .pmov a b => packWord i.opcode.code a b 0 0 false
  | .pgetx a b => packWord i.opcode.code a b 0 0 false
  | .pgety a b => packWord i.opcode.code a b 0 0 false
  | .pisinf b => packWord i.opcode.code 0 b 0 0 false
  | .peq b c => packWord i.opcode.code 0 b c 0 false
  | .pneg a b => packWord i.opcode.code a b 0 0 false
  | .padd a b c => packWord i.opcode.code a b c 0 false
  | .pdbl a b => packWord i.opcode.code a b 0 0 false
  | .pmul a b c => packWord i.opcode.code a b c 0 false
  | .keygen a b => packWord i.opcode.code a b 0 0 false
  | .pubkey a b => packWord i.opcode.code a b 0 0 false
  | .sign a d b c => packWord i.opcode.code a b c d false
  | .verify b a c d => packWord i.opcode.code a b c d false

/-- The command read from the table's numbering of a row's bits: a command is one 32-bit bus word
(R90, R101), bit 0 its least significant bit (R12), so the number is the word itself. Bits at nbits
and above are 0; a longer row does not exist. -/
def decodeTableWord (nbits w : Nat) : Option Instr :=
  if nbits ≤ 32 then (decode (BitVec.ofNat 32 (w % 2 ^ nbits))).toOption else none

end Sys2Proof
end

