-- ==== Sys2Proof/Config.lean ====
section
/-! DEFINITION. What an implementation or a platform fixes (CURVE, WINDOW_BASE, IRQ_LINE) and the
free values: constants with no body, of which nothing can be proved. -/

namespace Sys2Proof

/-- CURVE, the record of the curve parameters (R9). The fields are 256 bits wide (R8), so
p < 2^256 and n < 2^256 hold by type; the rest of R9's well-formedness is `curveWf`. -/
structure Curve where
  p : Word
  a : Word
  b : Word
  gx : Word
  gy : Word
  n : Word
  deriving DecidableEq, Repr

/-- The configuration: CURVE (R9), WINDOW_BASE (R61) and IRQ_LINE (R263), the last two left OPEN by
the spec. It is fixed for the life of the model: no step changes it. DESIGN CHOICE (log 3, log 4):
it is carried in the state so that step is a function of one argument. -/
structure Config where
  curve : Curve
  windowBase : Nat
  irqLine : Nat
  deriving DecidableEq, Repr

/-- FREE VALUE (R44, I8, log 6): the entropy port's answer to the k-th draw of a run, where the
platform has fixed no answer. -/
opaque Config.freeDraw : Nat → Word

/-- FREE VALUE (R15, log 7): invmod(v, M) where gcd(mod(v, M), M) is not 1, a value the spec leaves
without a definition. Reached only with a composite p, through a slope's denominator. -/
opaque Config.freeInverse : Nat → Nat → Nat

end Sys2Proof
end

