-- ==== Sys2Proof/Machine/Modular.lean ====
section
/-! DEFINITION. Exact arithmetic modulo an odd number: mod (R12), the inverse invmod (R15), the
field functions of 40_field_arithmetic.md and the Montgomery constants (R41, R126). Operands are
mathematical integers; nothing wraps (R121). -/

namespace Sys2Proof.Machine

/-- mod(a, M): the residue of an integer in [0, M), also for a negative a (R12). -/
def modulo (a : Int) (m : Nat) : Nat := (a % (m : Int)).toNat

/-- Euclid's algorithm on the remainders r0, r1 with coefficients t0, t1: every remainder r keeps
r = t v modulo m. The answer is the last remainder that is not 0, with its coefficient. The first
argument bounds the number of divisions. -/
def euclid : Nat → Nat → Nat → Nat → Nat → Nat → Nat × Nat
  | 0, _, r0, t0, _, _ => (r0, t0)
  | fuel + 1, m, r0, t0, r1, t1 =>
    if r1 = 0 then (r0, t0)
    else euclid fuel m r1 t1 (r0 % r1) (modulo ((t0 : Int) - (r0 / r1 : Nat) * t1) m)

/-- invmod(v, M): the unique t in [1, M) with mod(v t, M) = 1, where gcd(mod(v, M), M) = 1 (R15).
Elsewhere the spec defines no value and this is a free value (log 7). 512 divisions are enough for
any M < 2^256. -/
def invmod (v m : Nat) : Nat :=
  let g := euclid 512 m m 0 (v % m) 1
  if g.1 = 1 then g.2 else Config.freeInverse v m

/-- A result of the field arithmetic, which always fits a register (R121). -/
def toWord (a : Nat) : Word := BitVec.ofNat 256 a

/-- The Montgomery radix R = 2^256 (R126). -/
def montRadix : Nat := 2 ^ 256

/-- Rinv_M = invmod(R, M) (R126). -/
def montRadixInv (m : Nat) : Nat := invmod montRadix m

/-- R mod M (R41, R126). -/
def montOne (m : Nat) : Nat := montRadix % m

/-- R^2 mod M (R41). -/
def montSquare (m : Nat) : Nat := (montRadix * montRadix) % m

/-- M' = - M^(-1) mod 2^256, the negated inverse (R41). -/
def montNegInv (m : Nat) : Nat := modulo (0 - (invmod m montRadix : Int)) montRadix

/-- MADD (R122). -/
def modAdd (a b : Word) (m : Nat) : Word := toWord (modulo ((a.toNat : Int) + b.toNat) m)

/-- MSUB (R123). -/
def modSub (a b : Word) (m : Nat) : Word := toWord (modulo ((a.toNat : Int) - b.toNat) m)

/-- MNEG (R124). -/
def modNeg (a : Word) (m : Nat) : Word := toWord (modulo (0 - (a.toNat : Int)) m)

/-- MRED (R125). -/
def modRed (a : Word) (m : Nat) : Word := toWord (modulo a.toNat m)

/-- MONTMUL (R128). -/
def montMul (a b : Word) (m : Nat) : Word :=
  toWord (modulo ((a.toNat * b.toNat * montRadixInv m : Nat) : Int) m)

/-- MMUL (R129). -/
def modMul (a b : Word) (m : Nat) : Word := toWord (modulo ((a.toNat * b.toNat : Nat) : Int) m)

/-- TOMONT (R130). -/
def toMont (a : Word) (m : Nat) : Word := toWord (modulo ((a.toNat * montRadix : Nat) : Int) m)

/-- FROMMONT (R131). -/
def fromMont (a : Word) (m : Nat) : Word :=
  toWord (modulo ((a.toNat * montRadixInv m : Nat) : Int) m)

/-- MINV's guard and value (R132): nothing when the residue is 0 or not coprime to M. -/
def modInv (a : Word) (m : Nat) : Option Word :=
  let v := modulo a.toNat m
  if v = 0 ∨ Nat.gcd v m ≠ 1 then none else some (toWord (invmod v m))

end Sys2Proof.Machine
end

