-- ==== Sys2Proof/Machine/CurveParams.lean ====
section
/-! DEFINITION. The curve configuration: the equation (R15), the well-formedness of a CURVE (R9), the
default NIST P-256 (R10), and the platform parameters (R61, R263). -/

namespace Sys2Proof.Machine

/-- onCurve(x, y): mod(y y - (x x x + a x + b), p) = 0 (R15). -/
def onCurve (c : Curve) (x y : Word) : Bool :=
  modulo ((y.toNat : Int) * y.toNat
    - ((x.toNat : Int) * x.toNat * x.toNat + (c.a.toNat : Int) * x.toNat + c.b.toNat)) c.p.toNat == 0

/-- A CURVE is well formed (R9): p and n odd and at least 3, the other parameters below p, and G on
the curve. -/
def curveWf (c : Curve) : Bool :=
  c.p.toNat % 2 == 1 && c.n.toNat % 2 == 1 && decide (3 ≤ c.p.toNat) && decide (3 ≤ c.n.toNat)
    && decide (c.a.toNat < c.p.toNat) && decide (c.b.toNat < c.p.toNat)
    && decide (c.gx.toNat < c.p.toNat) && decide (c.gy.toNat < c.p.toNat) && onCurve c c.gx c.gy

/-- WINDOW_BASE must be 4096-byte aligned (R61). -/
def windowBaseAligned (g : Config) : Bool := g.windowBase % 4096 == 0

/-- A configuration the model runs under (R9, R61). -/
def configWf (g : Config) : Bool := curveWf g.curve && windowBaseAligned g

/-- The value of the modulus a field command selects: CP_P or CP_N (R93). -/
def modulusValue (c : Curve) : Modulus → Nat
  | .p => c.p.toNat
  | .n => c.n.toNat

/-- The default CURVE, NIST P-256 (R10). -/
def p256 : Curve where
  p := 0xFFFFFFFF00000001000000000000000000000000FFFFFFFFFFFFFFFFFFFFFFFF#256
  a := 0xFFFFFFFF00000001000000000000000000000000FFFFFFFFFFFFFFFFFFFFFFFC#256
  b := 0x5AC635D8AA3A93E7B3EBBD55769886BC651D06B0CC53B0F63BCE3C3E27D2604B#256
  gx := 0x6B17D1F2E12C4247F8BCE6E563A440F277037D812DEB33A0F4A13945D898C296#256
  gy := 0x4FE342E2FE1A7F9B8EE7EB4A7C0F9E162BCE33576B315ECECBB6406837BF51F5#256
  n := 0xFFFFFFFF00000000FFFFFFFFFFFFFFFFBCE6FAADA7179E84F3B9CAC2FC632551#256

/-- The configuration at reset: the default CURVE (R10, log 3); WINDOW_BASE and IRQ_LINE are OPEN and
0 here (DESIGN CHOICE, log 4). -/
def defaultConfig : Config where
  curve := p256
  windowBase := 0
  irqLine := 0

end Sys2Proof.Machine
end

