-- ==== Sys2Proof/Machine/Types.lean ====
section
/-! DEFINITION. The values the state holds besides words: points (R24), error kinds (R250), the
host's bus accesses and their responses (R62, R293), and the events still to come (R20, R264). -/

namespace Sys2Proof.Machine

/-- A point value, INF or Aff(x, y) (R24, R161): an explicit sum, no coordinates stand for INF. -/
inductive Point where
  | inf
  | aff (x y : Word)
  deriving DecidableEq, Repr

/-- Why a command fails (R250). Success is code 0 and no error. -/
inductive CmdError where
  /-- code 1 (R251) -/
  | illegal
  /-- code 2 (R252) -/
  | validation
  /-- code 3 (R253) -/
  | arithmetic
  /-- code 4 (R254) -/
  | identity
  /-- code 5 (R255) -/
  | rng
  deriving DecidableEq, Repr

/-- The width of a host access (R62). -/
inductive Width where
  | w8
  | w16
  | w32
  | w64
  deriving DecidableEq, Repr

/-- A host bus access at a physical address (R13, R61). A write carries the 32-bit word a write of
width 32 stores; a write of another width stores nothing (R62), so its data is not represented. -/
inductive Access where
  | read (width : Width) (addr : Nat)
  | write (width : Width) (addr : Nat) (value : BusWord)
  deriving DecidableEq, Repr

/-- What the host gets back (R293): the word of a read, or a bus error at an offset (R62). -/
inductive Response where
  | data (value : BusWord)
  | busError (off : Offset)
  deriving DecidableEq, Repr

/-- One event of a run, in the order the scheduler picks (R20, R40, R264): a host access, the command
engine's turn, or a hardware reset (R280). -/
inductive Event where
  | bus (a : Access)
  | engine
  | hardReset
  deriving DecidableEq, Repr

end Sys2Proof.Machine
end

