-- ==== Sys2Proof/Machine/Group.lean ====
section
/-! DEFINITION. The group law on points: ptEq, ptNeg, ptDbl, ptAdd (41_curve_point.md) and smul
(42_scalar_multiplier.md), with the document's case order and its arithmetic errors. -/

namespace Sys2Proof.Machine

/-- G = Aff(Gx, Gy) (R165). -/
def basePoint (c : Curve) : Point := .aff c.gx c.gy

/-- ptEq (R169). -/
def ptEq : Point → Point → Bool
  | .inf, .inf => true
  | .aff x1 y1, .aff x2 y2 => x1 == x2 && y1 == y2
  | .inf, .aff _ _ => false
  | .aff _ _, .inf => false

/-- ptNeg (R172). -/
def ptNeg (c : Curve) : Point → Point
  | .inf => .inf
  | .aff x y => .aff x (modNeg y c.p.toNat)

/-- The x3 and y3 formulas of R174 and R176 for a slope lam through (x1, y1) and a point with
coordinate x2. -/
def chord (c : Curve) (lam : Nat) (x1 y1 x2 : Word) : Point :=
  let x3 := modulo ((lam : Int) * lam - x1.toNat - x2.toNat) c.p.toNat
  let y3 := modulo ((lam : Int) * ((x1.toNat : Int) - x3) - y1.toNat) c.p.toNat
  .aff (toWord x3) (toWord y3)

/-- ptDbl (R176). -/
def ptDbl (c : Curve) : Point → Except CmdError Point
  | .inf => .ok .inf
  | .aff x y =>
    let p := c.p.toNat
    let d := modulo (2 * (y.toNat : Int)) p
    if d = 0 then .error .arithmetic
    else
      let lam := modulo ((3 * (x.toNat : Int) * x.toNat + c.a.toNat) * invmod d p) p
      .ok (chord c lam x y x)

/-- ptAdd, its cases tested in exactly the order of R174. -/
def ptAdd (c : Curve) (P Q : Point) : Except CmdError Point :=
  match P, Q with
  | .inf, _ => .ok Q
  | .aff _ _, .inf => .ok P
  | .aff x1 y1, .aff x2 y2 =>
    let p := c.p.toNat
    if x1 = x2 ∧ y1.toNat = modulo (0 - (y2.toNat : Int)) p then .ok .inf
    else if x1 = x2 ∧ y1 = y2 then ptDbl c P
    else
      let d := modulo ((x2.toNat : Int) - x1.toNat) p
      if d = 0 then .error .arithmetic
      else
        let lam := modulo (((y2.toNat : Int) - y1.toNat) * invmod d p) p
        .ok (chord c lam x1 y1 x2)

/-- The loop of smul for bits i - 1 down to 0 of k, from the accumulator Q (R200). -/
def smulLoop (c : Curve) (k : Word) (P : Point) : Nat → Point → Except CmdError Point
  | 0, Q => .ok Q
  | i + 1, Q =>
    match ptDbl c Q with
    | .error e => .error e
    | .ok Q2 =>
      if k.getLsbD i then
        match ptAdd c Q2 P with
        | .error e => .error e
        | .ok Q3 => smulLoop c k P i Q3
      else smulLoop c k P i Q2

/-- smul(k, P): MSB-first double-and-add over all 256 bits, k not reduced (R200, C6). -/
def smul (c : Curve) (k : Word) (P : Point) : Except CmdError Point := smulLoop c k P 256 .inf

end Sys2Proof.Machine
end

