-- ==== Sys2Proof/Machine/State.lean ====
section
/-! DEFINITION. The state of the machine, its value after reset, and the reasons a step can stop. -/

namespace Sys2Proof.Machine

/-- The state. The first ten fields are the architectural state, exactly R21's list. The rest is the
model's own: the configuration, the events still to come, what the host has been answered, and the
entropy port's answers. -/
structure State where
  /-- D0 to D15 (R22) -/
  dregs : Vector Word 16
  /-- P0 to P15 (R24) -/
  pregs : Vector Point 16
  /-- FLAG (R29) -/
  flag : Bool
  /-- BUSY (R30) -/
  busy : Bool
  /-- DONE (R31) -/
  done : Bool
  /-- WERR (R36) -/
  werr : Bool
  /-- ERRCODE[3:0] (R35) -/
  errcode : BitVec 4
  /-- CTRL.IE (R33) -/
  ie : Bool
  /-- CMDLAST (R28) -/
  cmdlast : BusWord
  /-- CUR, meaningful only while busy (R40) -/
  cur : BusWord
  /-- the configuration (R9); no step changes it -/
  cfg : Config
  /-- what still happens, oldest first (R20, R76, R264; log 1) -/
  events : List Event
  /-- the host's read results and bus errors so far, oldest first (R293; log 5) -/
  responses : List Response
  /-- the port answers the platform has fixed, oldest first (R44; log 6) -/
  entropy : List Word
  /-- how many draws have been made: the index of the free value (log 6) -/
  draws : Nat
  deriving DecidableEq, Repr

/-- The machine never faults: every error of the block is an error code in STATUS (R250, R260) or a
bus-error response (R62), after which it goes on, and no behaviour of the spec is stuck (93). -/
inductive Fault where
  deriving DecidableEq, Repr

/-- Why a step has no meaning. -/
inductive Refusal where
  /-- An instruction with no meaning yet; exec's arms alone would raise it, and none does. Safe. -/
  | notModelled (mnemonic : String)
  /-- Raised by advance for a CURVE that is not well formed: R9, "A model must refuse a CURVE that
  is not well formed". Safe. -/
  | curveNotWellFormed
  /-- Raised by advance for a WINDOW_BASE that is not 4096-byte aligned, which R61 rules out. Safe. -/
  | windowBaseUnaligned
  deriving DecidableEq, Repr

/-- The machine right after reset (R46, R280). CUR's bits mean nothing while BUSY = 0 (DESIGN CHOICE
0, log 2). Nothing is scheduled, answered or drawn yet (log 1, 5, 6). -/
def State.reset : State where
  dregs := Vector.replicate 16 0#256
  pregs := Vector.replicate 16 .inf
  flag := false
  busy := false
  done := false
  werr := false
  errcode := 0#4
  ie := false
  cmdlast := 0#32
  cur := 0#32
  cfg := defaultConfig
  events := []
  responses := []
  entropy := []
  draws := 0

end Sys2Proof.Machine
end

