-- ==== Sys2Proof/Machine/Operands.lean ====
section
/-! DEFINITION. The operand forms: data registers, point registers, the modulus of the M bit (R97),
and the 32-bit lanes through which the host sees a 256-bit register (R64). -/

namespace Sys2Proof.Machine

/-- D[r] (R13). -/
def State.readD (s : State) (r : DReg) : Word := s.dregs.get r

/-- D[r] <- v (R13). -/
def State.writeD (s : State) (r : DReg) (v : Word) : State := { s with dregs := s.dregs.set r v }

/-- P[r] (R13). -/
def State.readP (s : State) (r : PReg) : Point := s.pregs.get r

/-- P[r] <- v (R13). -/
def State.writeP (s : State) (r : PReg) (v : Point) : State := { s with pregs := s.pregs.set r v }

/-- The modulus M of a field command (R93). -/
def State.modulus (s : State) (m : Modulus) : Nat := modulusValue s.cfg.curve m

/-- Word j of a 256-bit value: bits [255 - 32 j : 224 - 32 j], the most significant word first
(R64). -/
def lane (v : Word) (j : Fin 8) : BusWord := v.extractLsb' (224 - 32 * j.val) 32

/-- v with word j replaced by w (R64). -/
def setLane (v : Word) (j : Fin 8) (w : BusWord) : Word :=
  let sh := 224 - 32 * j.val
  (v &&& ~~~((BitVec.allOnes 32).setWidth 256 <<< sh)) ||| (w.setWidth 256 <<< sh)

/-- The stored X field of a point register: 0 for INF (R24). -/
def Point.xField : Point → Word
  | .inf => 0#256
  | .aff x _ => x

/-- The stored Y field of a point register: 0 for INF (R24). -/
def Point.yField : Point → Word
  | .inf => 0#256
  | .aff _ y => y

/-- The stored INF bit of a point register (R24). -/
def Point.isInf : Point → Bool
  | .inf => true
  | .aff _ _ => false

/-- Word j of a 32-byte digest as the host writes it: four bytes, the first one highest (R65). -/
def digestWord (d : Vector Byte 32) (j : Fin 8) : BusWord :=
  d[4 * j.val] ++ d[4 * j.val + 1] ++ d[4 * j.val + 2] ++ d[4 * j.val + 3]

/-- A digest as a big-endian unsigned integer, the sum of d[i] 256^(31 - i) (R65). -/
def digestValue (d : Vector Byte 32) : Nat := d.toList.foldl (fun acc x => acc * 256 + x.toNat) 0

end Sys2Proof.Machine
end

