-- ==== Sys2Proof/Machine/Flags.lean ====
section
/-! DEFINITION. The one condition flag's values for the four boolean commands (R29), the error codes
(R250), the CTRL and STATUS words (R33, R34) and the interrupt output (R45). -/

namespace Sys2Proof.Machine

/-- ERRCODE of a failed command (R250). -/
def CmdError.code : CmdError → BitVec 4
  | .illegal => 1#4
  | .validation => 2#4
  | .arithmetic => 3#4
  | .identity => 4#4
  | .rng => 5#4

/-- FLAG of PVAL: the curve equation on the raw operands (R160). -/
def flagOnCurve (c : Curve) (x y : Word) : Bool := onCurve c x y

/-- FLAG of PISINF (R170). -/
def flagIsInf (P : Point) : Bool := P.isInf

/-- FLAG of PEQ (R171). -/
def flagEq (P Q : Point) : Bool := ptEq P Q

/-- FLAG of VERIFY (R234): steps 1 to 5, with every ARITHMETIC inside and R2 = INF turned into 0. -/
def flagVerify (c : Curve) (m : Word) (K : Point) (s e : Word) : Bool :=
  match smul c s (basePoint c) with
  | .error _ => false
  | .ok U =>
    match smul c e K with
    | .error _ => false
    | .ok V =>
      match ptAdd c U V with
      | .error _ => false
      | .ok .inf => false
      | .ok (.aff x _) => (m ^^^ x) == e

/-- The STATUS word: BUSY, DONE, FLAG, WERR in bits 0 to 3, ERRCODE in [7:4], the rest 0 (R34). -/
def State.statusWord (s : State) : BusWord :=
  BitVec.ofNat 32 (s.busy.toNat + 2 * s.done.toNat + 4 * s.flag.toNat + 8 * s.werr.toNat
    + 16 * s.errcode.toNat)

/-- The CTRL word: IE in bit 0; SRST and the reserved bits read 0 (R33). -/
def State.ctrlWord (s : State) : BusWord := BitVec.ofNat 32 s.ie.toNat

/-- The interrupt output, a level: CTRL.IE AND STATUS.DONE (R45, R263). -/
def State.irq (s : State) : Bool := s.ie && s.done

/-- The host interrupt input the block drives, if any: IRQ_LINE while irq is 1 (R263). -/
def State.irqDriven (s : State) : Option Nat := if s.irq then some s.cfg.irqLine else none

end Sys2Proof.Machine
end

