-- ==== Sys2Proof/Machine/Ops.lean ====
section
/-! DEFINITION. The shared operations: what a command commits, its completion with success or with an
error (the block's counterpart of taking an exception, R259), the draw from the entropy port (R44),
the acceptance of a command word (R37), and reset (R280). -/

namespace Sys2Proof.Machine

/-- What a command's commit phase writes (R14, R40): data registers, point registers, and FLAG where
the command defines it. -/
structure Writes where
  dw : List (DReg × Word)
  pw : List (PReg × Point)
  flagval : Option Bool
  deriving DecidableEq, Repr

/-- The result of Execute (R40): an error, or the writes to commit. -/
abbrev Result := Except CmdError Writes

/-- A commit of nothing (R120). -/
def commitNone : Writes := ⟨[], [], none⟩

/-- A commit of one data register. -/
def commitD (r : DReg) (v : Word) : Writes := ⟨[(r, v)], [], none⟩

/-- A commit of one point register. -/
def commitP (r : PReg) (v : Point) : Writes := ⟨[], [(r, v)], none⟩

/-- A commit of FLAG alone (R29). -/
def commitFlag (b : Bool) : Writes := ⟨[], [], some b⟩

/-- The writes made together (R14). -/
def State.applyWrites (s : State) (w : Writes) : State :=
  let s1 := w.dw.foldl (fun t x => t.writeD x.1 x.2) s
  let s2 := w.pw.foldl (fun t x => t.writeP x.1 x.2) s1
  { s2 with flag := w.flagval.getD s.flag }

/-- The status part of a completion: ERRCODE <- code, DONE <- 1, BUSY <- 0 (R40, R259). -/
def State.endCommand (s : State) (code : BitVec 4) : State :=
  { s with errcode := code, done := true, busy := false }

/-- A completion (R259): the commit writes only with code 0, then ERRCODE, DONE and BUSY. -/
def State.complete (s : State) (r : Result) : State :=
  match r with
  | .ok w => (s.applyWrites w).endCommand 0#4
  | .error e => s.endCommand e.code

/-- A command's meaning ends in its completion, a next state whether it succeeds or fails. -/
def finish (r : Result) (s : State) : Host.Outcome State Fault Refusal := .next (s.complete r)

/-- The port's answer to the next draw (R44): the first answer the platform has fixed, and where it
has fixed none the free value (log 6). -/
def State.drawn (s : State) : Word :=
  match s.entropy with
  | x :: _ => x
  | [] => Config.freeDraw s.draws

/-- The state after one draw: the answer is used up and kept nowhere (R221). -/
def State.afterDraw (s : State) : State :=
  { s with entropy := s.entropy.tail, draws := s.draws + 1 }

/-- An accepted write of a command word to CMD (R37, BUSY = 0). -/
def State.issue (s : State) (w : BusWord) : State :=
  { s with cmdlast := w, cur := w, busy := true, done := false, errcode := 0#4 }

/-- Reset, hardware (R280) and soft (R281): every piece of architectural state to its value of R46. The
configuration is not state; what the environment still does and has seen is not the block's. -/
def State.resetBlock (s : State) : State :=
  { State.reset with
    cfg := s.cfg, events := s.events, responses := s.responses, entropy := s.entropy,
    draws := s.draws }

/-- A command word put where the engine takes its next command: the accepted write of R37, with the
engine's turn first among the events (log 10). -/
def State.loadCommand (s : State) (w : BusWord) : State :=
  { s.issue w with events := .engine :: s.events }

end Sys2Proof.Machine
end

