-- ==== Sys2Proof/Machine/Adder.lean ====
section
/-! DEFINITION. modular_adder_subtractor: MADD, MSUB, MNEG, MRED (R122 to R125). -/

namespace Sys2Proof.Machine

/-- A field command of one source register that always succeeds (R121). -/
def fieldUnary (f : Word → Nat → Word) (m : Modulus) (rd ra : DReg) (s : State) :
    Host.Outcome State Fault Refusal :=
  finish (.ok (commitD rd (f (s.readD ra) (s.modulus m)))) s

/-- A field command of two source registers that always succeeds (R121). -/
def fieldBinary (f : Word → Word → Nat → Word) (m : Modulus) (rd ra rb : DReg) (s : State) :
    Host.Outcome State Fault Refusal :=
  finish (.ok (commitD rd (f (s.readD ra) (s.readD rb) (s.modulus m)))) s

/-- MADD (R122). -/
def execMadd (m : Modulus) (rd ra rb : DReg) (s : State) : Host.Outcome State Fault Refusal :=
  fieldBinary modAdd m rd ra rb s

/-- MSUB (R123). -/
def execMsub (m : Modulus) (rd ra rb : DReg) (s : State) : Host.Outcome State Fault Refusal :=
  fieldBinary modSub m rd ra rb s

/-- MNEG (R124). -/
def execMneg (m : Modulus) (rd ra : DReg) (s : State) : Host.Outcome State Fault Refusal :=
  fieldUnary modNeg m rd ra s

/-- MRED (R125). -/
def execMred (m : Modulus) (rd ra : DReg) (s : State) : Host.Outcome State Fault Refusal :=
  fieldUnary modRed m rd ra s

end Sys2Proof.Machine
end

