-- ==== Sys2Proof/Machine/Control.lean ====
section
/-! DEFINITION. The control unit's one command. -/

namespace Sys2Proof.Machine

/-- NOP (R120). -/
def execNop (s : State) : Host.Outcome State Fault Refusal := finish (.ok commitNone) s

end Sys2Proof.Machine
end

