-- ==== Sys2Proof/Machine/Montgomery.lean ====
section
/-! DEFINITION. montgomery_multiplier: MONTMUL, MMUL, TOMONT, FROMMONT, MINV (R128 to R132). -/

namespace Sys2Proof.Machine

/-- MONTMUL (R128). -/
def execMontmul (m : Modulus) (rd ra rb : DReg) (s : State) : Host.Outcome State Fault Refusal :=
  fieldBinary montMul m rd ra rb s

/-- MMUL (R129). -/
def execMmul (m : Modulus) (rd ra rb : DReg) (s : State) : Host.Outcome State Fault Refusal :=
  fieldBinary modMul m rd ra rb s

/-- TOMONT (R130). -/
def execTomont (m : Modulus) (rd ra : DReg) (s : State) : Host.Outcome State Fault Refusal :=
  fieldUnary toMont m rd ra s

/-- FROMMONT (R131). -/
def execFrommont (m : Modulus) (rd ra : DReg) (s : State) : Host.Outcome State Fault Refusal :=
  fieldUnary fromMont m rd ra s

/-- MINV's result (R132): ARITHMETIC where the residue has no inverse. -/
def minvResult (rd : DReg) (a : Word) (m : Nat) : Result :=
  match modInv a m with
  | none => .error .arithmetic
  | some t => .ok (commitD rd t)

/-- MINV (R132). -/
def execMinv (m : Modulus) (rd ra : DReg) (s : State) : Host.Outcome State Fault Refusal :=
  finish (minvResult rd (s.readD ra) (s.modulus m)) s

end Sys2Proof.Machine
end

