-- ==== Sys2Proof/Machine/Points.lean ====
section
/-! DEFINITION. ecc_point_adder and ecc_point_doubler (R160 to R177). -/

namespace Sys2Proof.Machine

/-- The commit of a point, or the arithmetic error that ended its computation (R174, R176, R200). -/
def pointResult (pd : PReg) (r : Except CmdError Point) : Result :=
  match r with
  | .error e => .error e
  | .ok P => .ok (commitP pd P)

/-- PVAL (R160). -/
def execPval (rx ry : DReg) (s : State) : Host.Outcome State Fault Refusal :=
  finish (.ok (commitFlag (flagOnCurve s.cfg.curve (s.readD rx) (s.readD ry)))) s

/-- PLOAD's result (R163): VALIDATION off the curve, else the reduced coordinates. -/
def ploadResult (c : Curve) (pd : PReg) (x y : Word) : Result :=
  if onCurve c x y then .ok (commitP pd (.aff (modRed x c.p.toNat) (modRed y c.p.toNat)))
  else .error .validation

/-- PLOAD (R163). -/
def execPload (pd : PReg) (rx ry : DReg) (s : State) : Host.Outcome State Fault Refusal :=
  finish (ploadResult s.cfg.curve pd (s.readD rx) (s.readD ry)) s

/-- PINF (R164). -/
def execPinf (pd : PReg) (s : State) : Host.Outcome State Fault Refusal :=
  finish (.ok (commitP pd .inf)) s

/-- PGEN (R165). -/
def execPgen (pd : PReg) (s : State) : Host.Outcome State Fault Refusal :=
  finish (.ok (commitP pd (basePoint s.cfg.curve))) s

/-- PMOV (R166). -/
def execPmov (pd ps : PReg) (s : State) : Host.Outcome State Fault Refusal :=
  finish (.ok (commitP pd (s.readP ps))) s

/-- PGETX's result (R167): IDENTITY for INF. -/
def pgetxResult (rd : DReg) : Point → Result
  | .inf => .error .identity
  | .aff x _ => .ok (commitD rd x)

/-- PGETX (R167). -/
def execPgetx (rd : DReg) (ps : PReg) (s : State) : Host.Outcome State Fault Refusal :=
  finish (pgetxResult rd (s.readP ps)) s

/-- PGETY's result (R168): IDENTITY for INF. -/
def pgetyResult (rd : DReg) : Point → Result
  | .inf => .error .identity
  | .aff _ y => .ok (commitD rd y)

/-- PGETY (R168). -/
def execPgety (rd : DReg) (ps : PReg) (s : State) : Host.Outcome State Fault Refusal :=
  finish (pgetyResult rd (s.readP ps)) s

/-- PISINF (R170). -/
def execPisinf (ps : PReg) (s : State) : Host.Outcome State Fault Refusal :=
  finish (.ok (commitFlag (flagIsInf (s.readP ps)))) s

/-- PEQ (R171). -/
def execPeq (ps qs : PReg) (s : State) : Host.Outcome State Fault Refusal :=
  finish (.ok (commitFlag (flagEq (s.readP ps) (s.readP qs)))) s

/-- PNEG (R173). -/
def execPneg (pd ps : PReg) (s : State) : Host.Outcome State Fault Refusal :=
  finish (.ok (commitP pd (ptNeg s.cfg.curve (s.readP ps)))) s

/-- PADD (R175). -/
def execPadd (pd ps qs : PReg) (s : State) : Host.Outcome State Fault Refusal :=
  finish (pointResult pd (ptAdd s.cfg.curve (s.readP ps) (s.readP qs))) s

/-- PDBL (R177). -/
def execPdbl (pd ps : PReg) (s : State) : Host.Outcome State Fault Refusal :=
  finish (pointResult pd (ptDbl s.cfg.curve (s.readP ps))) s

end Sys2Proof.Machine
end

