-- ==== Sys2Proof/Machine/Scalar.lean ====
section
/-! DEFINITION. ecc_scalar_multiplier: PMUL (R201). -/

namespace Sys2Proof.Machine

/-- PMUL (R201). -/
def execPmul (pd : PReg) (rk : DReg) (ps : PReg) (s : State) : Host.Outcome State Fault Refusal :=
  finish (pointResult pd (smul s.cfg.curve (s.readD rk) (s.readP ps))) s

end Sys2Proof.Machine
end

