-- ==== Sys2Proof/Machine/Schnorr.lean ====
section
/-! DEFINITION. schnorr_signature_core: KEYGEN, PUBKEY, SIGN, VERIFY (43_schnorr.md). -/

namespace Sys2Proof.Machine

/-- chal(m, R) for R = Aff(x, y): m XOR R.x, not reduced (R225, C1). -/
def chal (m x : Word) : Word := m ^^^ x

/-- resp(r, k, e) = mod(r - k e, n) (R226). -/
def resp (c : Curve) (r k e : Word) : Word :=
  toWord (modulo ((r.toNat : Int) - (k.toNat : Int) * e.toNat) c.n.toNat)

/-- KEYGEN's result for a drawn k (R220). -/
def keygenResult (c : Curve) (rd : DReg) (pd : PReg) (k : Word) : Result :=
  if c.n.toNat ≤ k.toNat then .error .rng
  else
    match smul c k (basePoint c) with
    | .error e => .error e
    | .ok K => .ok ⟨[(rd, k)], [(pd, K)], none⟩

/-- KEYGEN (R220): one draw, then its result. -/
def execKeygen (rd : DReg) (pd : PReg) (s : State) : Host.Outcome State Fault Refusal :=
  finish (keygenResult s.cfg.curve rd pd s.drawn) s.afterDraw

/-- PUBKEY (R222). -/
def execPubkey (pd : PReg) (rk : DReg) (s : State) : Host.Outcome State Fault Refusal :=
  finish (pointResult pd (smul s.cfg.curve (s.readD rk) (basePoint s.cfg.curve))) s

/-- SIGN's result for a drawn r (R228): RNG, then ARITHMETIC from smul, then ARITHMETIC for R = INF
(R258). -/
def signResult (c : Curve) (rs re : DReg) (k m r : Word) : Result :=
  if c.n.toNat ≤ r.toNat then .error .rng
  else
    match smul c r (basePoint c) with
    | .error e => .error e
    | .ok .inf => .error .arithmetic
    | .ok (.aff x _) => .ok ⟨[(rs, resp c r k (chal m x)), (re, chal m x)], [], none⟩

/-- SIGN (R228). With s and e in one register it is ILLEGAL and no draw is made. -/
def execSign (rs re rk rm : DReg) (s : State) : Host.Outcome State Fault Refusal :=
  finish (if rs = re then .error .illegal
      else signResult s.cfg.curve rs re (s.readD rk) (s.readD rm) s.drawn)
    (if rs = re then s else s.afterDraw)

/-- VERIFY (R234): always a boolean, never an error (C3). -/
def execVerify (pk : PReg) (rm rs re : DReg) (s : State) : Host.Outcome State Fault Refusal :=
  finish (.ok (commitFlag
    (flagVerify s.cfg.curve (s.readD rm) (s.readP pk) (s.readD rs) (s.readD re)))) s

end Sys2Proof.Machine
end

