-- ==== Sys2Proof/Machine/Dispatch.lean ====
section
/-! DEFINITION. The meaning of each command: one arm per row of the opcode table (R96). -/

namespace Sys2Proof.Machine

/-- The completion of a decoded command in a state (R40). -/
def exec (i : Instr) (s : State) : Host.Outcome State Fault Refusal :=
  match i with
  -- control
  | .nop => Sys2Proof.Machine.execNop s
  -- modular_adder_subtractor
  | .madd m rd ra rb => Sys2Proof.Machine.execMadd m rd ra rb s
  | .msub m rd ra rb => Sys2Proof.Machine.execMsub m rd ra rb s
  | .mneg m rd ra => Sys2Proof.Machine.execMneg m rd ra s
  | .mred m rd ra => Sys2Proof.Machine.execMred m rd ra s
  -- montgomery_multiplier
  | .montmul m rd ra rb => Sys2Proof.Machine.execMontmul m rd ra rb s
  | .mmul m rd ra rb => Sys2Proof.Machine.execMmul m rd ra rb s
  | .tomont m rd ra => Sys2Proof.Machine.execTomont m rd ra s
  | .frommont m rd ra => Sys2Proof.Machine.execFrommont m rd ra s
  | .minv m rd ra => Sys2Proof.Machine.execMinv m rd ra s
  -- ecc_point_adder and ecc_point_doubler
  | .pval rx ry => Sys2Proof.Machine.execPval rx ry s
  | .pload pd rx ry => Sys2Proof.Machine.execPload pd rx ry s
  | .pinf pd => Sys2Proof.Machine.execPinf pd s
  | .pgen pd => Sys2Proof.Machine.execPgen pd s
  | .pmov pd ps => Sys2Proof.Machine.execPmov pd ps s
  | .pgetx rd ps => Sys2Proof.Machine.execPgetx rd ps s
  | .pgety rd ps => Sys2Proof.Machine.execPgety rd ps s
  | .pisinf ps => Sys2Proof.Machine.execPisinf ps s
  | .peq ps qs => Sys2Proof.Machine.execPeq ps qs s
  | .pneg pd ps => Sys2Proof.Machine.execPneg pd ps s
  | .padd pd ps qs => Sys2Proof.Machine.execPadd pd ps qs s
  | .pdbl pd ps => Sys2Proof.Machine.execPdbl pd ps s
  -- ecc_scalar_multiplier
  | .pmul pd rk ps => Sys2Proof.Machine.execPmul pd rk ps s
  -- schnorr_signature_core
  | .keygen rd pd => Sys2Proof.Machine.execKeygen rd pd s
  | .pubkey pd rk => Sys2Proof.Machine.execPubkey pd rk s
  | .sign rs re rk rm => Sys2Proof.Machine.execSign rs re rk rm s
  | .verify pk rm rs re => Sys2Proof.Machine.execVerify pk rm rs re s

end Sys2Proof.Machine
end

