-- ==== Sys2Proof/Machine/Window.lean ====
section
/-! DEFINITION. The register window (20_memory.md): the address map, reads, writes, and a host access
with its bus errors. -/

namespace Sys2Proof.Machine

/-- What an aligned offset of the window names (R66, R69). -/
inductive Region where
  | id
  | ctrl
  | status
  | cmd
  | dword (i : DReg) (j : Fin 8)
  | pointX (i : PReg) (j : Fin 8)
  | pointY (i : PReg) (j : Fin 8)
  | pointInf (i : PReg)
  | curveWord (k : Fin 6) (j : Fin 8)
  | reserved
  deriving DecidableEq, Repr

/-- The index of word j of eight within a 32-byte block at a distance from its base. -/
def laneAt (dist : Nat) : Fin 8 := Fin.ofNat 8 (dist % 32 / 4)

/-- The content of a point register's 128 bytes at a distance from its base (R69). -/
def pointRegion (i : PReg) (dist : Nat) : Region :=
  if dist < 0x20 then .pointX i (laneAt dist)
  else if dist < 0x40 then .pointY i (laneAt dist)
  else if dist = 0x40 then .pointInf i
  else .reserved

/-- The address map (R66). -/
def regionOf (off : Offset) : Region :=
  let n := off.toNat
  if n = 0x000 then .id
  else if n = 0x004 then .ctrl
  else if n = 0x008 then .status
  else if n = 0x00C then .cmd
  else if n < 0x100 then .reserved
  else if n < 0x300 then .dword (Fin.ofNat 16 ((n - 0x100) / 0x20)) (laneAt (n - 0x100))
  else if n < 0x400 then .reserved
  else if n < 0xC00 then pointRegion (Fin.ofNat 16 ((n - 0x400) / 0x80)) ((n - 0x400) % 0x80)
  else if n < 0xCC0 then .curveWord (Fin.ofNat 6 ((n - 0xC00) / 0x20)) (laneAt (n - 0xC00))
  else .reserved

/-- The ID register (R32). -/
def idWord : BusWord := 0x4D4D0001#32

/-- The curve parameter registers in the order of their offsets: CP_P, CP_A, CP_B, CP_GX, CP_GY, CP_N
(R38, R66). -/
def curveParam (c : Curve) (k : Fin 6) : Word := #v[c.p, c.a, c.b, c.gx, c.gy, c.n].get k

/-- The word an aligned 32-bit read returns (R28, R32 to R34, R64, R68 to R71). -/
def State.readRegion (s : State) : Region → BusWord
  | .id => idWord
  | .ctrl => s.ctrlWord
  | .status => s.statusWord
  | .cmd => s.cmdlast
  | .dword i j => lane (s.readD i) j
  | .pointX i j => lane (s.readP i).xField j
  | .pointY i j => lane (s.readP i).yField j
  | .pointInf i => BitVec.ofNat 32 (s.readP i).isInf.toNat
  | .curveWord k j => lane (curveParam s.cfg.curve k) j
  | .reserved => 0#32

/-- MemRead(off, 4) (R13). -/
def State.windowRead (s : State) (off : Offset) : BusWord := s.readRegion (regionOf off)

/-- A write to CTRL: SRST resets the block and bit 0 is then ignored; else IE takes bit 0 (R33,
R281). -/
def State.writeCtrl (s : State) (v : BusWord) : State :=
  if v.getLsbD 1 then s.resetBlock else { s with ie := v.getLsbD 0 }

/-- A write to STATUS: DONE and WERR are write-1-to-clear, nothing else changes (R31, R34, R36). -/
def State.writeStatus (s : State) (v : BusWord) : State :=
  { s with done := s.done && !v.getLsbD 1, werr := s.werr && !v.getLsbD 3 }

/-- A write dropped because BUSY = 1 (R36, R287). -/
def State.dropWrite (s : State) : State := { s with werr := true }

/-- A write to CMD (R37). -/
def State.writeCmd (s : State) (v : BusWord) : State := if s.busy then s.dropWrite else s.issue v

/-- A write to word j of a data register (R68, R287). -/
def State.writeLane (s : State) (i : DReg) (j : Fin 8) (v : BusWord) : State :=
  if s.busy then s.dropWrite else s.writeD i (setLane (s.readD i) j v)

/-- An aligned 32-bit write by what it names; read-only and reserved words ignore it (R71, R72). -/
def State.writeRegion (s : State) (r : Region) (v : BusWord) : State :=
  match r with
  | .ctrl => s.writeCtrl v
  | .status => s.writeStatus v
  | .cmd => s.writeCmd v
  | .dword i j => s.writeLane i j v
  | .id | .pointX .. | .pointY .. | .pointInf .. | .curveWord .. | .reserved => s

/-- MemWrite(off, 4, v) (R13). -/
def State.windowWrite (s : State) (off : Offset) (v : BusWord) : State :=
  s.writeRegion (regionOf off) v

/-- The offset a physical address decodes to: off = addr - WINDOW_BASE, where it lies in the window
(R61). -/
def windowOffset (base addr : Nat) : Option Offset :=
  if base ≤ addr ∧ addr < base + 4096 then some (BitVec.ofNat 12 (addr - base)) else none

/-- An access the bus lets through: 32 bits wide (R62) and aligned (R63). -/
def accessOk (width : Width) (off : Offset) : Bool := width == .w32 && off.toNat % 4 == 0

/-- The host gets a response (R293). -/
def State.respond (s : State) (r : Response) : State := { s with responses := s.responses ++ [r] }

/-- One host access (R73, R76). An address outside the window never reaches the block (R61); another
width or a misaligned offset is a bus error with no effect (R62, R63). -/
def State.busAccess (s : State) (a : Access) : State :=
  match a with
  | .read width addr =>
    match windowOffset s.cfg.windowBase addr with
    | none => s
    | some off =>
      if accessOk width off then s.respond (.data (s.windowRead off)) else s.respond (.busError off)
  | .write width addr v =>
    match windowOffset s.cfg.windowBase addr with
    | none => s
    | some off => if accessOk width off then s.windowWrite off v else s.respond (.busError off)

end Sys2Proof.Machine
end

