-- ==== Sys2Proof/Machine/Engine.lean ====
section
/-! DEFINITION. One step of the whole block: the command engine's completion (R40), a host access
(R76), or a hardware reset (R280), whichever comes next (R264). -/

namespace Sys2Proof.Machine

/-- The completion of the command in flight: decode CUR (R40, R100), then the command's own rule; a
word that does not decode is ILLEGAL (R98, R251). -/
def State.engineStep (s : State) : Host.Outcome State Fault Refusal :=
  match decode s.cur with
  | .error _ => finish (.error .illegal) s
  | .ok i => exec i s

/-- The engine's turn: it completes a command in flight; with none the block idles (R271). -/
def State.engineTurn (s : State) : Host.Outcome State Fault Refusal :=
  if s.busy then s.engineStep else .next s

/-- One step. A configuration that is not well formed is refused (R9, R61). The next event is taken;
when none is left the engine has the turn, so that every command completes (R291, log 1). -/
def State.advance (s : State) : Host.Outcome State Fault Refusal :=
  if curveWf s.cfg.curve = false then .refused .curveNotWellFormed
  else if windowBaseAligned s.cfg = false then .refused .windowBaseUnaligned
  else
    match s.events with
    | [] => s.engineTurn
    | .engine :: rest => State.engineTurn { s with events := rest }
    | .bus a :: rest => .next (State.busAccess { s with events := rest } a)
    | .hardReset :: rest => .next (State.resetBlock { s with events := rest })

end Sys2Proof.Machine
end

