-- ==== Sys2Proof/Machine/Assembler.lean ====
section
/-! DEFINITION. The assembler syntax (R102) and the pseudo-instructions (R103), on lines already cut
into a mnemonic, a suffix and operands; and the text of a line. -/

namespace Sys2Proof.Machine

/-- An operand of a line: d0 to d15 or p0 to p15 (R102). -/
inductive Operand where
  | d (r : DReg)
  | p (r : PReg)
  deriving DecidableEq, Repr

/-- A mnemonic: a command's, or one of the four pseudo-instructions (R103). -/
inductive Mnemonic where
  | op (o : Opcode)
  | mmov
  | mdbl
  | msqr
  | montsqr
  deriving DecidableEq, Repr

/-- A line: mnemonic, optional suffix .p or .n, operands (R102). -/
structure AsmLine where
  mnemonic : Mnemonic
  suffix : Option Modulus
  operands : List Operand
  deriving DecidableEq, Repr

/-- A field command of three data registers; its suffix is required (R102). -/
def asmField3 (f : Modulus → DReg → DReg → DReg → Instr) :
    Option Modulus → List Operand → Option Instr
  | some m, [.d a, .d b, .d c] => some (f m a b c)
  | _, _ => none

/-- A field command of two data registers; its suffix is required (R102). -/
def asmField2 (f : Modulus → DReg → DReg → Instr) : Option Modulus → List Operand → Option Instr
  | some m, [.d a, .d b] => some (f m a b)
  | _, _ => none

/-- A command with no suffix, from its operands (R102). -/
def asmPlain (f : List Operand → Option Instr) : Option Modulus → List Operand → Option Instr
  | none, ops => f ops
  | some _, _ => none

/-- The operands of the commands that take no suffix, in the order of R102. -/
def asmOperands (o : Opcode) (ops : List Operand) : Option Instr :=
  match o, ops with
  | .nop, [] => some .nop
  | .pval, [.d b, .d c] => some (.pval b c)
  | .pload, [.p a, .d b, .d c] => some (.pload a b c)
  | .pinf, [.p a] => some (.pinf a)
  | .pgen, [.p a] => some (.pgen a)
  | .pmov, [.p a, .p b] => some (.pmov a b)
  | .pneg, [.p a, .p b] => some (.pneg a b)
  | .pdbl, [.p a, .p b] => some (.pdbl a b)
  | .pgetx, [.d a, .p b] => some (.pgetx a b)
  | .pgety, [.d a, .p b] => some (.pgety a b)
  | .pisinf, [.p b] => some (.pisinf b)
  | .peq, [.p b, .p c] => some (.peq b c)
  | .padd, [.p a, .p b, .p c] => some (.padd a b c)
  | .pmul, [.p a, .d b, .p c] => some (.pmul a b c)
  | .keygen, [.d a, .p b] => some (.keygen a b)
  | .pubkey, [.p a, .d b] => some (.pubkey a b)
  | .sign, [.d a, .d d, .d b, .d c] => some (.sign a d b c)
  | .verify, [.p b, .d a, .d c, .d d] => some (.verify b a c d)
  | _, _ => none

/-- The command of a line (R102, R103); a line of another shape is rejected. -/
def assemble (l : AsmLine) : Option Instr :=
  match l.mnemonic with
  | .op .madd => asmField3 .madd l.suffix l.operands
  | .op .msub => asmField3 .msub l.suffix l.operands
  | .op .montmul => asmField3 .montmul l.suffix l.operands
  | .op .mmul => asmField3 .mmul l.suffix l.operands
  | .op .mneg => asmField2 .mneg l.suffix l.operands
  | .op .mred => asmField2 .mred l.suffix l.operands
  | .op .tomont => asmField2 .tomont l.suffix l.operands
  | .op .frommont => asmField2 .frommont l.suffix l.operands
  | .op .minv => asmField2 .minv l.suffix l.operands
  | .op o => asmPlain (asmOperands o) l.suffix l.operands
  | .mmov => asmField2 .mred l.suffix l.operands
  | .mdbl => asmField2 (fun m a b => .madd m a b b) l.suffix l.operands
  | .msqr => asmField2 (fun m a b => .mmul m a b b) l.suffix l.operands
  | .montsqr => asmField2 (fun m a b => .montmul m a b b) l.suffix l.operands

/-- The line of a command (R102). -/
def disassemble (i : Instr) : AsmLine :=
  let line := AsmLine.mk (.op i.opcode)
  match i with
  | .nop => line none []
  | .madd m a b c => line (some m) [.d a, .d b, .d c]
  | .msub m a b c => line (some m) [.d a, .d b, .d c]
  | .montmul m a b c => line (some m) [.d a, .d b, .d c]
  | .mmul m a b c => line (some m) [.d a, .d b, .d c]
  | .mneg m a b => line (some m) [.d a, .d b]
  | .mred m a b => line (some m) [.d a, .d b]
  | .tomont m a b => line (some m) [.d a, .d b]
  | .frommont m a b => line (some m) [.d a, .d b]
  | .minv m a b => line (some m) [.d a, .d b]
  | .pval b c => line none [.d b, .d c]
  | .pload a b c => line none [.p a, .d b, .d c]
  | .pinf a => line none [.p a]
  | .pgen a => line none [.p a]
  | .pmov a b => line none [.p a, .p b]
  | .pneg a b => line none [.p a, .p b]
  | .pdbl a b => line none [.p a, .p b]
  | .pgetx a b => line none [.d a, .p b]
  | .pgety a b => line none [.d a, .p b]
  | .pisinf b => line none [.p b]
  | .peq b c => line none [.p b, .p c]
  | .padd a b c => line none [.p a, .p b, .p c]
  | .pmul a b c => line none [.p a, .d b, .p c]
  | .keygen a b => line none [.d a, .p b]
  | .pubkey a b => line none [.p a, .d b]
  | .sign a d b c => line none [.d a, .d d, .d b, .d c]
  | .verify b a c d => line none [.p b, .d a, .d c, .d d]

/-- The lower-case name of a command (R96, R102). -/
def opcodeName : Opcode → String
  | .nop => "nop"
  | .madd => "madd"
  | .msub => "msub"
  | .mneg => "mneg"
  | .mred => "mred"
  | .montmul => "montmul"
  | .mmul => "mmul"
  | .tomont => "tomont"
  | .frommont => "frommont"
  | .minv => "minv"
  | .pval => "pval"
  | .pload => "pload"
  | .pinf => "pinf"
  | .pgen => "pgen"
  | .pmov => "pmov"
  | .pgetx => "pgetx"
  | .pgety => "pgety"
  | .pisinf => "pisinf"
  | .peq => "peq"
  | .pneg => "pneg"
  | .padd => "padd"
  | .pdbl => "pdbl"
  | .pmul => "pmul"
  | .keygen => "keygen"
  | .pubkey => "pubkey"
  | .sign => "sign"
  | .verify => "verify"

/-- The name of a mnemonic (R102, R103). -/
def mnemonicName : Mnemonic → String
  | .op o => opcodeName o
  | .mmov => "mmov"
  | .mdbl => "mdbl"
  | .msqr => "msqr"
  | .montsqr => "montsqr"

/-- The text of a suffix (R102). -/
def suffixText : Option Modulus → String
  | none => ""
  | some .p => ".p"
  | some .n => ".n"

/-- The text of an operand (R102). -/
def operandText : Operand → String
  | .d r => "d" ++ toString r.val
  | .p r => "p" ++ toString r.val

/-- Operands separated by commas (R102). -/
def operandsText : List Operand → String
  | [] => ""
  | [x] => operandText x
  | x :: xs => operandText x ++ ", " ++ operandsText xs

/-- The text of a line (R102). -/
def lineText (l : AsmLine) : String :=
  let head := mnemonicName l.mnemonic ++ suffixText l.suffix
  if l.operands.isEmpty then head else head ++ " " ++ operandsText l.operands

end Sys2Proof.Machine
end

