-- ==== Sys2Proof/Safety.lean ====
section
/-! DEFINITION. The terms claims use: invariants, the end of a run and its observation (R293), and what
a command leaves unchanged. -/

namespace Sys2Proof.Machine

/-- A point value that a point register may hold: INF, or reduced coordinates on the curve (R25,
R161). -/
def pointValid (c : Curve) : Point → Bool
  | .inf => true
  | .aff x y => decide (x.toNat < c.p.toNat) && decide (y.toNat < c.p.toNat) && onCurve c x y

/-- The invariant of R25 on all sixteen point registers. -/
abbrev State.pointsValid (s : State) : Prop :=
  ∀ r : PReg, pointValid s.cfg.curve (s.readP r) = true

/-- The invariant of the status bits (R30, R31, R35, R37, R250): while a command is in flight DONE and
ERRCODE are 0 and CUR is CMDLAST, and ERRCODE is never one of the reserved codes 6 to 15. -/
abbrev State.statusConsistent (s : State) : Prop :=
  (s.busy = true → s.done = false ∧ s.errcode = 0#4 ∧ s.cur = s.cmdlast) ∧ s.errcode.toNat ≤ 5

/-- An event that is a host access (R293). -/
def Event.isAccess : Event → Bool
  | .bus _ => true
  | .engine | .hardReset => false

/-- A run is over: the host has made its last access and BUSY = 0 (R293). A turn of the engine or a
hardware reset still to come does not keep it open. -/
def State.runOver (s : State) : Bool := !s.events.any Event.isAccess && !s.busy

/-- The observation of a run (R293). -/
structure Observation where
  dregs : Vector Word 16
  pregs : Vector Point 16
  flag : Bool
  status : BusWord
  ie : Bool
  cmdlast : BusWord
  responses : List Response
  deriving DecidableEq, Repr

/-- What a state shows at the end of a run (R293). -/
def State.observe (s : State) : Observation :=
  ⟨s.dregs, s.pregs, s.flag, s.statusWord, s.ie, s.cmdlast, s.responses⟩

/-- The observation of a run (R293): of the first state in which it is over, if one comes within the
given number of steps. -/
def State.runObservation : Nat → State → Option Observation
  | 0, s => if s.runOver then some s.observe else none
  | k + 1, s =>
    if s.runOver then some s.observe
    else
      match step s with
      | .next t => State.runObservation k t
      | .fault _ | .refused _ => none

/-- A completion from s to t with an error code: ERRCODE, DONE and BUSY as R259 sets them, and every
other control field, the configuration and the host's side as they were. -/
structure Completed (s t : State) (code : BitVec 4) : Prop where
  errcode : t.errcode = code
  done : t.done = true
  busy : t.busy = false
  werr : t.werr = s.werr
  ie : t.ie = s.ie
  cmdlast : t.cmdlast = s.cmdlast
  cur : t.cur = s.cur
  cfg : t.cfg = s.cfg
  events : t.events = s.events
  responses : t.responses = s.responses

/-- No data register changed. -/
abbrev SameD (s t : State) : Prop := ∀ r : DReg, t.readD r = s.readD r

/-- No point register changed. -/
abbrev SameP (s t : State) : Prop := ∀ r : PReg, t.readP r = s.readP r

/-- Data register rd took a value and no other data register changed. -/
abbrev WroteD (s t : State) (rd : DReg) (v : Word) : Prop :=
  t.readD rd = v ∧ ∀ r : DReg, r ≠ rd → t.readD r = s.readD r

/-- Point register pd took a value and no other point register changed. -/
abbrev WroteP (s t : State) (pd : PReg) (v : Point) : Prop :=
  t.readP pd = v ∧ ∀ r : PReg, r ≠ pd → t.readP r = s.readP r

/-- No draw was made. -/
abbrev NoDraw (s t : State) : Prop := t.entropy = s.entropy ∧ t.draws = s.draws

/-- Exactly one draw was made, and its answer is used up (R221). -/
abbrev OneDraw (s t : State) : Prop := t.entropy = s.entropy.tail ∧ t.draws = s.draws + 1

/-- A successful command that wrote one data register and nothing else. -/
abbrev OnlyD (s t : State) (rd : DReg) (v : Word) : Prop :=
  Completed s t 0#4 ∧ WroteD s t rd v ∧ SameP s t ∧ t.flag = s.flag ∧ NoDraw s t

/-- A successful command that wrote one point register and nothing else. -/
abbrev OnlyP (s t : State) (pd : PReg) (v : Point) : Prop :=
  Completed s t 0#4 ∧ SameD s t ∧ WroteP s t pd v ∧ t.flag = s.flag ∧ NoDraw s t

/-- A successful command that wrote FLAG and nothing else. -/
abbrev OnlyFlag (s t : State) (b : Bool) : Prop :=
  Completed s t 0#4 ∧ SameD s t ∧ SameP s t ∧ t.flag = b ∧ NoDraw s t

/-- A failed command: nothing but the status of the completion (R259). -/
abbrev OnlyError (s t : State) (e : CmdError) : Prop :=
  Completed s t e.code ∧ SameD s t ∧ SameP s t ∧ t.flag = s.flag

/-- The third point of a line of slope num / den through (x1, y1) and a point with coordinate x2, by
the formulas of R174 and R176: for a lam with lam den = num mod p, x3 = lam lam - x1 - x2 and
y3 = lam (x1 - x3) - y1 as residues in [0, p). -/
def SlopeResult (c : Curve) (num den : Int) (x1 y1 x2 x3 y3 : Word) : Prop :=
  ∃ lam : Int, (lam * den) % c.p.toNat = num % c.p.toNat ∧
    (x3.toNat : Int) = (lam * lam - x1.toNat - x2.toNat) % c.p.toNat ∧
    (y3.toNat : Int) = (lam * (x1.toNat - x3.toNat) - y1.toNat) % c.p.toNat

/-- The 27 assigned OPC values (R96). -/
def assignedOpcodes : List Nat :=
  [0x00, 0x01, 0x02, 0x03, 0x04, 0x08, 0x09, 0x0A, 0x0B, 0x0C] ++
  [0x10, 0x11, 0x12, 0x13, 0x14, 0x15, 0x16, 0x17, 0x18, 0x19, 0x1A, 0x1B, 0x1C] ++
  [0x20, 0x21, 0x22, 0x23]

/-- The OPC values whose M column in R97 is M. -/
def modulusOpcodes : List Nat := [0x01, 0x02, 0x03, 0x04, 0x08, 0x09, 0x0A, 0x0B, 0x0C]

/-- The OPC values whose A entry in R97 is 0. -/
def zeroAOpcodes : List Nat := [0x00, 0x10, 0x17, 0x18]

/-- The OPC values whose B entry in R97 is 0. -/
def zeroBOpcodes : List Nat := [0x00, 0x12, 0x13]

/-- The OPC values whose C entry in R97 is 0. -/
def zeroCOpcodes : List Nat :=
  [0x00, 0x03, 0x04, 0x0A, 0x0B, 0x0C, 0x12, 0x13, 0x14, 0x15, 0x16, 0x17, 0x19, 0x1B, 0x20, 0x21]

/-- The OPC values whose D entry in R97 is not 0: SIGN and VERIFY. -/
def usedDOpcodes : List Nat := [0x22, 0x23]

/-- The five conditions of R98 on a word whose OPC is opc. -/
abbrev illegalFields (opc : Nat) (w : BusWord) : Prop :=
  opc ∉ assignedOpcodes ∨ w.extractLsb' 0 7 ≠ 0#7 ∨
  (w.getLsbD 7 = true ∧ opc ∉ modulusOpcodes) ∨
  (opc ∈ zeroAOpcodes ∧ w.extractLsb' 20 4 ≠ 0#4) ∨
  (opc ∈ zeroBOpcodes ∧ w.extractLsb' 16 4 ≠ 0#4) ∨
  (opc ∈ zeroCOpcodes ∧ w.extractLsb' 12 4 ≠ 0#4) ∨
  (opc ∉ usedDOpcodes ∧ w.extractLsb' 8 4 ≠ 0#4) ∨
  (opc = 0x22 ∧ w.extractLsb' 20 4 = w.extractLsb' 8 4)

/-- The five conditions of R98, on the bits of the word. -/
abbrev illegalWord (w : BusWord) : Prop := illegalFields (w.extractLsb' 24 8).toNat w

/-- A host access that resets the block: an aligned 32-bit write to CTRL with bit 1 set (R281). -/
def isSoftReset (g : Config) : Access → Bool
  | .read .. => false
  | .write width addr v =>
    match windowOffset g.windowBase addr with
    | none => false
    | some off => accessOk width off && off == 0x004#12 && v.getLsbD 1

/-- The commands that write FLAG (R29). -/
def writesFlag : Instr → Bool
  | .pval .. | .pisinf .. | .peq .. | .verify .. => true
  | .nop | .madd .. | .msub .. | .mneg .. | .mred .. | .montmul .. | .mmul .. | .tomont ..
  | .frommont .. | .minv .. | .pload .. | .pinf .. | .pgen .. | .pmov .. | .pgetx .. | .pgety ..
  | .pneg .. | .padd .. | .pdbl .. | .pmul .. | .keygen .. | .pubkey .. | .sign .. => false

/-- The data registers a command may write (R23, R97). -/
def writtenD : Instr → List DReg
  | .madd _ rd _ _ | .msub _ rd _ _ | .montmul _ rd _ _ | .mmul _ rd _ _ => [rd]
  | .mneg _ rd _ | .mred _ rd _ | .tomont _ rd _ | .frommont _ rd _ | .minv _ rd _ => [rd]
  | .pgetx rd _ | .pgety rd _ | .keygen rd _ => [rd]
  | .sign rs re _ _ => [rs, re]
  | .nop | .pval .. | .pload .. | .pinf .. | .pgen .. | .pmov .. | .pisinf .. | .peq .. | .pneg ..
  | .padd .. | .pdbl .. | .pmul .. | .pubkey .. | .verify .. => []

/-- The point registers a command may write (R26, R97). -/
def writtenP : Instr → List PReg
  | .pload pd _ _ | .pinf pd | .pgen pd | .pmov pd _ | .pneg pd _ | .padd pd _ _ | .pdbl pd _ => [pd]
  | .pmul pd _ _ | .keygen _ pd | .pubkey pd _ => [pd]
  | .nop | .madd .. | .msub .. | .mneg .. | .mred .. | .montmul .. | .mmul .. | .tomont ..
  | .frommont .. | .minv .. | .pval .. | .pgetx .. | .pgety .. | .pisinf .. | .peq .. | .sign ..
  | .verify .. => []

/-- The commands that draw from the entropy port (R44, R221). -/
def makesDraw : Instr → Bool
  | .keygen .. => true
  | .sign rs re _ _ => rs != re
  | .nop | .madd .. | .msub .. | .mneg .. | .mred .. | .montmul .. | .mmul .. | .tomont ..
  | .frommont .. | .minv .. | .pval .. | .pload .. | .pinf .. | .pgen .. | .pmov .. | .pgetx ..
  | .pgety .. | .pisinf .. | .peq .. | .pneg .. | .padd .. | .pdbl .. | .pmul .. | .pubkey ..
  | .verify .. => false

/-- The curve is nonsingular: 4 a^3 + 27 b^2 is not 0 modulo p. -/
abbrev curveNonsingular (c : Curve) : Prop :=
  (4 * c.a.toNat ^ 3 + 27 * c.b.toNat ^ 2) % c.p.toNat ≠ 0

/-- The setting of the group laws (R178, R202): p prime, CURVE well formed and nonsingular, and
n G = INF. The default CURVE is of this kind (R10). -/
abbrev primeOrderCurve (c : Curve) : Prop :=
  Nat.Prime c.p.toNat ∧ curveWf c = true ∧ curveNonsingular c ∧
    smul c c.n (basePoint c) = .ok .inf

end Sys2Proof.Machine
end

