-- ==== Sys2Proof/Certificates/Slice0/Obligations.lean ====
section
/-! DEFINITION. The statements for the provers, from the numbered rules of spec/. -/


open Sys2Proof Sys2Proof.Machine

/-! ### Encoding -/

/-- Every command that can be written decodes from its word as itself (R90, R97, R100). -/
def Obligations.DecodeOfEncode : Prop :=
  ∀ i : Instr, i.wellFormed = true → decode (encode i) = .ok i

/-- Every legal word has one meaning: a word that decodes is the word of the command it decodes to,
and that command is well formed (R90, R99, R100). -/
def Obligations.EncodeOfDecode : Prop :=
  ∀ (w : BusWord) (i : Instr), decode w = .ok i → i.wellFormed = true ∧ encode i = w

/-- R98: a word is refused exactly when one of the five conditions holds, and then its completion
reports ERRCODE 1, writes no register and leaves FLAG; every other word is a command. -/
def Obligations.IllegalWordsAreExactlyTheFiveConditions : Prop :=
  (∀ w : BusWord, illegalWord w → ∃ e, decode w = .error e) ∧
  (∀ w : BusWord, ¬ illegalWord w → ∃ i, i.wellFormed = true ∧ decode w = .ok i) ∧
  (∀ s : State, s.busy = true → illegalWord s.cur →
    ∃ t, s.engineStep = .next t ∧ OnlyError s t .illegal ∧ t.errcode = 1#4 ∧ NoDraw s t)

/-- The seven example words of R105 decode to the commands they are given for. -/
def Obligations.ExampleWordsDecode : Prop :=
  decode 0x01312000#32 = .ok (.madd .p 3 1 2) ∧ decode 0x01312080#32 = .ok (.madd .n 3 1 2) ∧
  decode 0x0C210000#32 = .ok (.minv .p 2 1) ∧ decode 0x11112000#32 = .ok (.pload 1 1 2) ∧
  decode 0x1C211000#32 = .ok (.pmul 2 1 1) ∧ decode 0x22312400#32 = .ok (.sign 3 4 1 2) ∧
  decode 0x23213400#32 = .ok (.verify 1 2 3 4)

/-- The assembler reads every command's line back as that command, wants the suffix on a field
command, and expands the four pseudo-instructions to one command each (R102, R103). -/
def Obligations.AssemblerReadsLines : Prop :=
  (∀ i : Instr, assemble (disassemble i) = some i) ∧
  (∀ (o : Opcode) (ops : List Operand), o.usesM = true → assemble ⟨.op o, none, ops⟩ = none) ∧
  (∀ (m : Modulus) (a b : DReg),
    assemble ⟨.mmov, some m, [.d a, .d b]⟩ = some (.mred m a b) ∧
    assemble ⟨.mdbl, some m, [.d a, .d b]⟩ = some (.madd m a b b) ∧
    assemble ⟨.msqr, some m, [.d a, .d b]⟩ = some (.mmul m a b b) ∧
    assemble ⟨.montsqr, some m, [.d a, .d b]⟩ = some (.montmul m a b b))

/-! ### Steps -/

/-- A step runs the decoded command (R40): with a command in flight and the engine's turn next, or
nothing left to happen, step is exec of what CUR decodes to, at the state with that turn taken; a word
that does not decode completes with code 1. That the engine has the turn when nothing is left is the
model's choice (log 1). -/
def Obligations.StepRunsTheDecodedCommand : Prop :=
  ∀ s : State, configWf s.cfg = true → s.busy = true →
    (∀ i : Instr, decode s.cur = .ok i →
      (s.events = [] → step s = exec i s) ∧
      (∀ rest, s.events = .engine :: rest → step s = exec i { s with events := rest })) ∧
    (∀ e, decode s.cur = .error e →
      (s.events = [] → step s = .next (s.endCommand 1#4)) ∧
      (∀ rest, s.events = .engine :: rest →
        step s = .next (State.endCommand { s with events := rest } 1#4)))

/-- A step takes the next event: a host access and a hardware reset act at once and as one step, and
without a command in flight the engine's turn, or an empty list, changes nothing else (R76, R264, R271).
The list of events is the model's choice (log 1). -/
def Obligations.StepTakesTheNextEvent : Prop :=
  ∀ s : State, configWf s.cfg = true →
    (∀ a rest, s.events = .bus a :: rest →
      step s = .next (State.busAccess { s with events := rest } a)) ∧
    (∀ rest, s.events = .hardReset :: rest →
      step s = .next (State.resetBlock { s with events := rest })) ∧
    (∀ rest, s.busy = false → s.events = .engine :: rest →
      step s = .next { s with events := rest }) ∧
    (s.busy = false → s.events = [] → step s = .next s)

/-- Under a well-formed configuration every step answers a next state; a configuration that is not well
formed is refused: a CURVE by R9, and an unaligned WINDOW_BASE by the model's choice (R61, log 4). -/
def Obligations.StepStopsOnlyOnIllFormedConfig : Prop :=
  (∀ s : State, configWf s.cfg = true → ∃ t, step s = .next t) ∧
  (∀ s : State, curveWf s.cfg.curve = false → step s = .refused .curveNotWellFormed) ∧
  (∀ s : State, curveWf s.cfg.curve = true → s.cfg.windowBase % 4096 ≠ 0 →
    step s = .refused .windowBaseUnaligned)

/-! ### Control and field commands -/

/-- NOP (R120, R99): its only word is 0x00000000; it completes with ERRCODE 0 and changes no register
and no FLAG. -/
def Obligations.NopOnlyCompletes : Prop :=
  (∀ w : BusWord, decode w = .ok .nop ↔ w = 0#32) ∧
  (∀ w : BusWord, w.extractLsb' 24 8 = 0#8 → w ≠ 0#32 → ∃ e, decode w = .error e) ∧
  ∀ s : State, ∃ t, exec .nop s = .next t ∧ Completed s t 0#4 ∧ SameD s t ∧ SameP s t ∧
    t.flag = s.flag ∧ NoDraw s t ∧ (s.flag = false → s.werr = false → t.statusWord = 2#32)

/-- MADD (R122): D[rd] is the residue of the exact sum, and nothing but D[rd] and the completion's
status changes. -/
def Obligations.MaddWritesTheSum : Prop :=
  ∀ (s : State) (m : Modulus) (rd ra rb : DReg), curveWf s.cfg.curve = true →
    ∃ t v, exec (.madd m rd ra rb) s = .next t ∧ OnlyD s t rd v ∧
      v.toNat = ((s.readD ra).toNat + (s.readD rb).toNat) % s.modulus m

/-- MSUB (R123): D[rd] is the non-negative residue of the exact difference. -/
def Obligations.MsubWritesTheDifference : Prop :=
  ∀ (s : State) (m : Modulus) (rd ra rb : DReg), curveWf s.cfg.curve = true →
    ∃ t v, exec (.msub m rd ra rb) s = .next t ∧ OnlyD s t rd v ∧ v.toNat < s.modulus m ∧
      (v.toNat + (s.readD rb).toNat) % s.modulus m = (s.readD ra).toNat % s.modulus m

/-- MNEG (R124) and MRED (R125): the residues of - a and of a. -/
def Obligations.MnegAndMredWriteResidues : Prop :=
  ∀ (s : State) (m : Modulus) (rd ra : DReg), curveWf s.cfg.curve = true →
    (∃ t v, exec (.mneg m rd ra) s = .next t ∧ OnlyD s t rd v ∧ v.toNat < s.modulus m ∧
      (v.toNat + (s.readD ra).toNat) % s.modulus m = 0) ∧
    (∃ t v, exec (.mred m rd ra) s = .next t ∧ OnlyD s t rd v ∧
      v.toNat = (s.readD ra).toNat % s.modulus m)

/-- MONTMUL (R128, R126): D[rd] is the one residue v with R v = a b modulo M, for R = 2^256. -/
def Obligations.MontmulWritesTheMontgomeryProduct : Prop :=
  ∀ (s : State) (m : Modulus) (rd ra rb : DReg), curveWf s.cfg.curve = true →
    ∃ t v, exec (.montmul m rd ra rb) s = .next t ∧ OnlyD s t rd v ∧ v.toNat < s.modulus m ∧
      (2 ^ 256 * v.toNat) % s.modulus m
        = ((s.readD ra).toNat * (s.readD rb).toNat) % s.modulus m

/-- MMUL (R129): the residue of the exact product. -/
def Obligations.MmulWritesTheProduct : Prop :=
  ∀ (s : State) (m : Modulus) (rd ra rb : DReg), curveWf s.cfg.curve = true →
    ∃ t v, exec (.mmul m rd ra rb) s = .next t ∧ OnlyD s t rd v ∧
      v.toNat = ((s.readD ra).toNat * (s.readD rb).toNat) % s.modulus m

/-- TOMONT (R130) and FROMMONT (R131): v = R a modulo M, and the one residue v with R v = a. -/
def Obligations.TomontAndFrommontConvert : Prop :=
  ∀ (s : State) (m : Modulus) (rd ra : DReg), curveWf s.cfg.curve = true →
    (∃ t v, exec (.tomont m rd ra) s = .next t ∧ OnlyD s t rd v ∧
      v.toNat = ((s.readD ra).toNat * 2 ^ 256) % s.modulus m) ∧
    (∃ t v, exec (.frommont m rd ra) s = .next t ∧ OnlyD s t rd v ∧ v.toNat < s.modulus m ∧
      (2 ^ 256 * v.toNat) % s.modulus m = (s.readD ra).toNat % s.modulus m)

/-- MINV (R132): with a coprime to M, D[rd] is the inverse in [1, M); a residue 0, or one not coprime to
M, is ARITHMETIC (3) and writes nothing. -/
def Obligations.MinvWritesTheInverse : Prop :=
  ∀ (s : State) (m : Modulus) (rd ra : DReg), curveWf s.cfg.curve = true →
    (Nat.gcd (s.readD ra).toNat (s.modulus m) = 1 →
      ∃ t v, exec (.minv m rd ra) s = .next t ∧ OnlyD s t rd v ∧ 1 ≤ v.toNat ∧
        v.toNat < s.modulus m ∧ ((s.readD ra).toNat * v.toNat) % s.modulus m = 1) ∧
    ((s.readD ra).toNat % s.modulus m = 0 ∨ Nat.gcd (s.readD ra).toNat (s.modulus m) ≠ 1 →
      ∃ t, exec (.minv m rd ra) s = .next t ∧ OnlyError s t .arithmetic ∧ t.errcode = 3#4 ∧
        NoDraw s t)

/-- R121: an operand of M or more gives the result its residue gives, in every field command. -/
def Obligations.FieldResultsIgnoreReduction : Prop :=
  ∀ (a b M : Word), 3 ≤ M.toNat →
    let a' := modRed a M.toNat
    let b' := modRed b M.toNat
    modAdd a b M.toNat = modAdd a' b' M.toNat ∧ modSub a b M.toNat = modSub a' b' M.toNat ∧
    modNeg a M.toNat = modNeg a' M.toNat ∧ modRed a M.toNat = modRed a' M.toNat ∧
    montMul a b M.toNat = montMul a' b' M.toNat ∧ modMul a b M.toNat = modMul a' b' M.toNat ∧
    toMont a M.toNat = toMont a' M.toNat ∧ fromMont a M.toNat = fromMont a' M.toNat ∧
    modInv a M.toNat = modInv a' M.toNat

/-- R131, R134: FROMMONT and TOMONT undo each other up to reduction, FROMMONT(a) is MONTMUL(a, 1), and
the response of R226 is MSUB.n(r, MMUL.n(k, e)). -/
def Obligations.MontgomeryAndResponseLaws : Prop :=
  (∀ (a M : Word), 3 ≤ M.toNat → M.toNat % 2 = 1 →
    fromMont (toMont a M.toNat) M.toNat = modRed a M.toNat ∧
    toMont (fromMont a M.toNat) M.toNat = modRed a M.toNat ∧
    fromMont a M.toNat = montMul a 1#256 M.toNat) ∧
  (∀ (c : Curve) (r k e : Word), curveWf c = true →
    resp c r k e = modSub r (modMul k e c.n.toNat) c.n.toNat)

/-! ### Point commands -/

/-- PVAL (R160): FLAG is 1 exactly when y y = x x x + a x + b modulo p, on the raw operands. -/
def Obligations.PvalTestsTheCurveEquation : Prop :=
  ∀ (s : State) (rx ry : DReg), curveWf s.cfg.curve = true →
    ∃ t, exec (.pval rx ry) s = .next t ∧
      OnlyFlag s t (decide (((s.readD ry).toNat * (s.readD ry).toNat) % s.cfg.curve.p.toNat =
        ((s.readD rx).toNat ^ 3 + s.cfg.curve.a.toNat * (s.readD rx).toNat
          + s.cfg.curve.b.toNat) % s.cfg.curve.p.toNat))

/-- PLOAD (R163): coordinates on the curve are stored reduced; others are VALIDATION (2) with nothing
written. -/
def Obligations.PloadValidatesAndReduces : Prop :=
  ∀ (s : State) (pd : PReg) (rx ry : DReg), curveWf s.cfg.curve = true →
    let x := s.readD rx
    let y := s.readD ry
    let p := s.cfg.curve.p.toNat
    let ok := (y.toNat * y.toNat) % p
      = (x.toNat ^ 3 + s.cfg.curve.a.toNat * x.toNat + s.cfg.curve.b.toNat) % p
    (ok → ∃ t x' y', exec (.pload pd rx ry) s = .next t ∧ OnlyP s t pd (.aff x' y') ∧
      x'.toNat = x.toNat % p ∧ y'.toNat = y.toNat % p) ∧
    (¬ ok → ∃ t, exec (.pload pd rx ry) s = .next t ∧ OnlyError s t .validation ∧
      t.errcode = 2#4 ∧ NoDraw s t)

/-- PINF, PGEN, PMOV (R164 to R166): INF, G, and a copy. -/
def Obligations.PointMoves : Prop :=
  ∀ (s : State) (pd ps : PReg),
    (∃ t, exec (.pinf pd) s = .next t ∧ OnlyP s t pd .inf) ∧
    (∃ t, exec (.pgen pd) s = .next t ∧
      OnlyP s t pd (.aff s.cfg.curve.gx s.cfg.curve.gy)) ∧
    (∃ t, exec (.pmov pd ps) s = .next t ∧ OnlyP s t pd (s.readP ps))

/-- PGETX and PGETY (R167, R168): a coordinate of an affine point; INF is IDENTITY (4) with nothing
written. -/
def Obligations.CoordinateReads : Prop :=
  ∀ (s : State) (rd : DReg) (ps : PReg),
    (∀ x y, s.readP ps = .aff x y →
      (∃ t, exec (.pgetx rd ps) s = .next t ∧ OnlyD s t rd x) ∧
      (∃ t, exec (.pgety rd ps) s = .next t ∧ OnlyD s t rd y)) ∧
    (s.readP ps = .inf →
      (∃ t, exec (.pgetx rd ps) s = .next t ∧ OnlyError s t .identity ∧ t.errcode = 4#4) ∧
      (∃ t, exec (.pgety rd ps) s = .next t ∧ OnlyError s t .identity ∧ t.errcode = 4#4))

/-- PISINF (R170) and PEQ (R171): FLAG is 1 exactly for INF, and for equal stored values. -/
def Obligations.PointTestsWriteFlag : Prop :=
  ∀ (s : State) (ps qs : PReg),
    (∃ t, exec (.pisinf ps) s = .next t ∧ OnlyFlag s t (decide (s.readP ps = .inf))) ∧
    (∃ t, exec (.peq ps qs) s = .next t ∧ OnlyFlag s t (decide (s.readP ps = s.readP qs)))

/-- PNEG (R172, R173): INF stays INF; Aff(x, y) becomes Aff(x, y') with y' the residue of - y. -/
def Obligations.PnegNegatesY : Prop :=
  ∀ (s : State) (pd ps : PReg), curveWf s.cfg.curve = true →
    (s.readP ps = .inf → ∃ t, exec (.pneg pd ps) s = .next t ∧ OnlyP s t pd .inf) ∧
    (∀ x y, s.readP ps = .aff x y →
      ∃ t y', exec (.pneg pd ps) s = .next t ∧ OnlyP s t pd (.aff x y') ∧
        y'.toNat < s.cfg.curve.p.toNat ∧ (y'.toNat + y.toNat) % s.cfg.curve.p.toNat = 0)

/-- PADD, cases 1 and 2 of R174: the identity is neutral, and P + (- P) = INF, also for y = 0. -/
def Obligations.PaddIdentityAndInverse : Prop :=
  ∀ (s : State) (pd ps qs : PReg),
    (s.readP ps = .inf → ∃ t, exec (.padd pd ps qs) s = .next t ∧ OnlyP s t pd (s.readP qs)) ∧
    (s.readP qs = .inf → ∃ t, exec (.padd pd ps qs) s = .next t ∧ OnlyP s t pd (s.readP ps)) ∧
    (∀ x y1 y2, s.readP ps = .aff x y1 → s.readP qs = .aff x y2 →
      y1.toNat < s.cfg.curve.p.toNat → (y1.toNat + y2.toNat) % s.cfg.curve.p.toNat = 0 →
      ∃ t, exec (.padd pd ps qs) s = .next t ∧ OnlyP s t pd .inf)

/-- PADD, cases 3 and 4 of R174: a point with itself is doubled by the tangent, two points with
different x are joined by the chord. -/
def Obligations.PaddTangentAndChord : Prop :=
  ∀ (s : State) (pd ps qs : PReg) (x1 y1 x2 y2 : Word), curveWf s.cfg.curve = true →
    s.readP ps = .aff x1 y1 → s.readP qs = .aff x2 y2 →
    (x1 = x2 → y1 = y2 → Nat.gcd (2 * y1.toNat) s.cfg.curve.p.toNat = 1 →
      ∃ t x3 y3, exec (.padd pd ps qs) s = .next t ∧ OnlyP s t pd (.aff x3 y3) ∧
        SlopeResult s.cfg.curve (3 * x1.toNat * x1.toNat + s.cfg.curve.a.toNat) (2 * y1.toNat)
          x1 y1 x1 x3 y3) ∧
    (Int.gcd ((x2.toNat : Int) - x1.toNat) s.cfg.curve.p.toNat = 1 →
      ∃ t x3 y3, exec (.padd pd ps qs) s = .next t ∧ OnlyP s t pd (.aff x3 y3) ∧
        SlopeResult s.cfg.curve ((y2.toNat : Int) - y1.toNat) ((x2.toNat : Int) - x1.toNat)
          x1 y1 x2 x3 y3)

/-- PADD, case 4 of R174: a zero denominator that is neither case 2 nor case 3 is ARITHMETIC (3). -/
def Obligations.PaddFailsOnZeroDenominator : Prop :=
  ∀ (s : State) (pd ps qs : PReg) (x1 y1 x2 y2 : Word), curveWf s.cfg.curve = true →
    s.readP ps = .aff x1 y1 → s.readP qs = .aff x2 y2 →
    x1.toNat % s.cfg.curve.p.toNat = x2.toNat % s.cfg.curve.p.toNat →
    ¬ (x1 = x2 ∧ (y1 = y2 ∨
      (y1.toNat < s.cfg.curve.p.toNat ∧ (y1.toNat + y2.toNat) % s.cfg.curve.p.toNat = 0))) →
    ∃ t, exec (.padd pd ps qs) s = .next t ∧ OnlyError s t .arithmetic ∧ t.errcode = 3#4

/-- PDBL (R176, R177): INF stays INF, the tangent formula, and ARITHMETIC (3) for y = 0. -/
def Obligations.PdblDoubles : Prop :=
  ∀ (s : State) (pd ps : PReg), curveWf s.cfg.curve = true →
    (s.readP ps = .inf → ∃ t, exec (.pdbl pd ps) s = .next t ∧ OnlyP s t pd .inf) ∧
    (∀ x y, s.readP ps = .aff x y → Nat.gcd (2 * y.toNat) s.cfg.curve.p.toNat = 1 →
      ∃ t x3 y3, exec (.pdbl pd ps) s = .next t ∧ OnlyP s t pd (.aff x3 y3) ∧
        SlopeResult s.cfg.curve (3 * x.toNat * x.toNat + s.cfg.curve.a.toNat) (2 * y.toNat)
          x y x x3 y3) ∧
    (∀ x, s.readP ps = .aff x 0#256 →
      ∃ t, exec (.pdbl pd ps) s = .next t ∧ OnlyError s t .arithmetic ∧ t.errcode = 3#4)

/-- R179, R178: the group laws on points a point register may hold; a valid point T = Aff(x, 0) added to
itself is INF, and doubled is ARITHMETIC. -/
def Obligations.GroupLawsOnValidPoints : Prop :=
  ∀ (c : Curve) (P : Point), curveWf c = true → pointValid c P = true →
    ptAdd c P (ptNeg c P) = .ok .inf ∧
    ptAdd c P .inf = .ok P ∧ ptAdd c .inf P = .ok P ∧
    (∀ x y, P = .aff x y → y ≠ 0#256 → ptDbl c P = ptAdd c P P) ∧
    (∀ x, P = .aff x 0#256 → ptAdd c P P = .ok .inf ∧ ptDbl c P = .error .arithmetic)

/-- R180 with R25: for a prime p, ptAdd of two valid points never raises, and its result is valid. -/
def Obligations.PaddIsTotalOnValidPoints : Prop :=
  ∀ (c : Curve) (P Q : Point), Nat.Prime c.p.toNat → curveWf c = true →
    pointValid c P = true → pointValid c Q = true →
    ∃ R, ptAdd c P Q = .ok R ∧ pointValid c R = true

/-! ### Scalar multiplication -/

/-- PMUL (R201): P[pd] is smul(D[rk], P[ps]); where smul raises, ARITHMETIC (3) with nothing
written, and smul raises nothing else. -/
def Obligations.PmulWritesTheMultiple : Prop :=
  ∀ (s : State) (pd : PReg) (rk : DReg) (ps : PReg),
    (∀ R, smul s.cfg.curve (s.readD rk) (s.readP ps) = .ok R →
      ∃ t, exec (.pmul pd rk ps) s = .next t ∧ OnlyP s t pd R) ∧
    (∀ e, smul s.cfg.curve (s.readD rk) (s.readP ps) = .error e → e = .arithmetic ∧
      ∃ t, exec (.pmul pd rk ps) s = .next t ∧ OnlyError s t .arithmetic ∧ t.errcode = 3#4)

/-- R200, read one bit at a time: smul(k, P) doubles smul(k / 2, P) and adds P when k is odd. -/
def Obligations.SmulDoublesAndAdds : Prop :=
  ∀ (c : Curve) (k : Word) (P : Point),
    smul c k P =
      match smul c (k >>> 1) P with
      | .error e => .error e
      | .ok Q =>
        match ptDbl c Q with
        | .error e => .error e
        | .ok Q2 => if k.getLsbD 0 then ptAdd c Q2 P else .ok Q2

/-- R201's corner cases: k = 0 gives INF, k = 1 gives P, and INF gives INF for every k. -/
def Obligations.SmulCornerCases : Prop :=
  ∀ (c : Curve) (k : Word) (P : Point),
    smul c 0#256 P = .ok .inf ∧ smul c 1#256 P = .ok P ∧ smul c k .inf = .ok .inf

/-- R202: on a curve whose base point has order dividing n, smul by G does not depend on reducing k
modulo n, and never raises. -/
def Obligations.ScalarMayBeReducedModOrder : Prop :=
  ∀ (c : Curve) (k : Word), primeOrderCurve c →
    (∃ R, smul c k (basePoint c) = .ok R) ∧
    smul c k (basePoint c) = smul c (modRed k c.n.toNat) (basePoint c)

/-! ### Key pair and signatures -/

/-- KEYGEN (R220, R258): exactly one draw k, the port's next answer; with k below n, D[rd] is k and P[pd]
is smul(k, G), or ARITHMETIC (3) and nothing written where smul raises; with k of n or more, RNG (5) and
nothing written. The draw is the entropy port's answer, which the model holds as a
list with a free value behind it (its choice, log 6). -/
def Obligations.KeygenWritesTheKeyPair : Prop :=
  ∀ (s : State) (rd : DReg) (pd : PReg),
    (∀ k rest, s.entropy = k :: rest → s.drawn = k) ∧
    (∀ K, s.drawn.toNat < s.cfg.curve.n.toNat →
      smul s.cfg.curve s.drawn (basePoint s.cfg.curve) = .ok K →
      ∃ t, exec (.keygen rd pd) s = .next t ∧ Completed s t 0#4 ∧ WroteD s t rd s.drawn ∧
        WroteP s t pd K ∧ t.flag = s.flag ∧ OneDraw s t) ∧
    (∀ e, s.drawn.toNat < s.cfg.curve.n.toNat →
      smul s.cfg.curve s.drawn (basePoint s.cfg.curve) = .error e →
      ∃ t, exec (.keygen rd pd) s = .next t ∧ OnlyError s t .arithmetic ∧ t.errcode = 3#4 ∧
        OneDraw s t) ∧
    (s.cfg.curve.n.toNat ≤ s.drawn.toNat →
      ∃ t, exec (.keygen rd pd) s = .next t ∧ OnlyError s t .rng ∧ t.errcode = 5#4 ∧ OneDraw s t)

/-- PUBKEY (R222): P[pd] is smul(D[rk], G), D[rk] not checked and not reduced. -/
def Obligations.PubkeyWritesThePublicPoint : Prop :=
  ∀ (s : State) (pd : PReg) (rk : DReg),
    (∀ K, smul s.cfg.curve (s.readD rk) (basePoint s.cfg.curve) = .ok K →
      ∃ t, exec (.pubkey pd rk) s = .next t ∧ OnlyP s t pd K) ∧
    (∀ e, smul s.cfg.curve (s.readD rk) (basePoint s.cfg.curve) = .error e →
      ∃ t, exec (.pubkey pd rk) s = .next t ∧ OnlyError s t .arithmetic)

/-- SIGN (R225, R226, R228, R229): with a draw r below n and R = r G = Aff(x, y), D[re] is m XOR x
unreduced and D[rs] is the residue of r - k e modulo n; one draw is made (log 6) and no other register
changes. -/
def Obligations.SignWritesTheSignature : Prop :=
  ∀ (s : State) (rs re rk rm : DReg) (x y : Word), curveWf s.cfg.curve = true → rs ≠ re →
    s.drawn.toNat < s.cfg.curve.n.toNat →
    smul s.cfg.curve s.drawn (basePoint s.cfg.curve) = .ok (.aff x y) →
    ∃ t sig, exec (.sign rs re rk rm) s = .next t ∧ Completed s t 0#4 ∧ t.readD rs = sig ∧
      t.readD re = s.readD rm ^^^ x ∧
      (∀ r : DReg, r ≠ rs → r ≠ re → t.readD r = s.readD r) ∧ SameP s t ∧ t.flag = s.flag ∧
      OneDraw s t ∧ sig.toNat < s.cfg.curve.n.toNat ∧
      (sig.toNat + (s.readD rk).toNat * (s.readD rm ^^^ x).toNat) % s.cfg.curve.n.toNat
        = s.drawn.toNat

/-- SIGN's errors, in the order of R258: s and e in one register is ILLEGAL with no draw, then a draw
of n or more is RNG, then an error of smul or R = INF is ARITHMETIC; no register is written. The draw
is held as the model's choice says (log 6). -/
def Obligations.SignFailsInOrder : Prop :=
  ∀ (s : State) (rs re rk rm : DReg),
    (rs = re → ∃ t, exec (.sign rs re rk rm) s = .next t ∧ OnlyError s t .illegal ∧ NoDraw s t) ∧
    (rs ≠ re → s.cfg.curve.n.toNat ≤ s.drawn.toNat →
      ∃ t, exec (.sign rs re rk rm) s = .next t ∧ OnlyError s t .rng ∧ OneDraw s t) ∧
    (rs ≠ re → s.drawn.toNat < s.cfg.curve.n.toNat →
      (∀ x y, smul s.cfg.curve s.drawn (basePoint s.cfg.curve) ≠ .ok (.aff x y)) →
      ∃ t, exec (.sign rs re rk rm) s = .next t ∧ OnlyError s t .arithmetic ∧ OneDraw s t)

/-- VERIFY (R234): it always succeeds, and FLAG is 1 exactly when s G, e K and their sum raise nothing,
the sum is Aff(x, y) and m XOR x is the raw e. -/
def Obligations.VerifyIsABoolean : Prop :=
  ∀ (s : State) (pk : PReg) (rm rs re : DReg),
    ∃ t b, exec (.verify pk rm rs re) s = .next t ∧ OnlyFlag s t b ∧
      (b = true ↔ ∃ U V x y, smul s.cfg.curve (s.readD rs) (basePoint s.cfg.curve) = .ok U ∧
        smul s.cfg.curve (s.readD re) (s.readP pk) = .ok V ∧
        ptAdd s.cfg.curve U V = .ok (.aff x y) ∧ s.readD rm ^^^ x = s.readD re)

/-- R235: on a curve whose base point has order dividing n, a signature that SIGN made with private key
k verifies under K = smul(k, G), wherever the operands are placed. -/
def Obligations.SignThenVerifyAccepts : Prop :=
  ∀ (s t u : State) (rs re rk rm : DReg) (pk : PReg) (vm vs ve : DReg),
    primeOrderCurve s.cfg.curve → exec (.sign rs re rk rm) s = .next t → t.errcode = 0#4 →
    u.cfg = s.cfg → smul s.cfg.curve (s.readD rk) (basePoint s.cfg.curve) = .ok (u.readP pk) →
    u.readD vm = s.readD rm → u.readD vs = t.readD rs → u.readD ve = t.readD re →
    ∃ u', exec (.verify pk vm vs ve) u = .next u' ∧ u'.flag = true ∧ u'.errcode = 0#4

/-! ### Rules over all commands -/

/-- R259: every command completes, with DONE and BUSY as R259 sets them and a code of R250; with an
error code no data register, point register or FLAG changes. -/
def Obligations.EveryCommandCompletesPrecisely : Prop :=
  ∀ (i : Instr) (s : State), ∃ t, exec i s = .next t ∧ Completed s t t.errcode ∧
    t.errcode.toNat ≤ 5 ∧ (t.errcode ≠ 0#4 → SameD s t ∧ SameP s t ∧ t.flag = s.flag)

/-- R29: FLAG is written only by a success of PVAL, PISINF, PEQ and VERIFY, no issue changes it, no
command reads it, and reset clears it. -/
def Obligations.FlagRules : Prop :=
  (∀ (i : Instr) (s t : State), exec i s = .next t → t.flag ≠ s.flag →
    writesFlag i = true ∧ t.errcode = 0#4) ∧
  (∀ (s : State) (w : BusWord), (s.windowWrite 0x00C#12 w).flag = s.flag) ∧
  (∀ (i : Instr) (s t : State) (b : Bool), exec i s = .next t →
    ∃ t', exec i { s with flag := b } = .next t' ∧ t'.dregs = t.dregs ∧ t'.pregs = t.pregs ∧
      t'.errcode = t.errcode ∧ (writesFlag i = true → t'.flag = t.flag)) ∧
  State.reset.flag = false

/-- R23, R26, R221: a command changes no register but those its destination fields name and, outside the
registers' own words, no word of the window but STATUS; it draws from the entropy port only as KEYGEN
or SIGN, then exactly once (held as the model's choice says, log 6). -/
def Obligations.OnlyDestinationsAreWritten : Prop :=
  ∀ (i : Instr) (s t : State), exec i s = .next t →
    (∀ r : DReg, r ∉ writtenD i → t.readD r = s.readD r) ∧
    (∀ r : PReg, r ∉ writtenP i → t.readP r = s.readP r) ∧
    (if makesDraw i = true then OneDraw s t else NoDraw s t) ∧
    (∀ off : Offset, off.toNat % 4 = 0 → off ≠ 0x008#12 →
      (off.toNat < 0x100 ∨ 0xC00 ≤ off.toNat) → t.windowRead off = s.windowRead off)

/-- R25: for a prime p, every step keeps every point register INF or reduced and on the curve. -/
def Obligations.PointRegistersStayValid : Prop :=
  ∀ s t : State, Nat.Prime s.cfg.curve.p.toNat → s.pointsValid → step s = .next t → t.pointsValid

/-- R30, R31, R35, R37, R250: every step keeps the status bits consistent. -/
def Obligations.StatusStaysConsistent : Prop :=
  ∀ s t : State, s.statusConsistent → step s = .next t → t.statusConsistent

/-- Both invariants hold at reset, and its configuration is well formed. The configuration at reset is the
model's choice: the default CURVE (log 3) and WINDOW_BASE 0 (log 4). -/
def Obligations.InvariantsHoldAtReset : Prop :=
  State.reset.pointsValid ∧ State.reset.statusConsistent ∧ configWf State.reset.cfg = true

/-- R9, R38: no step changes the configuration, and no write changes what the ID and CP words read. -/
def Obligations.ConfigurationNeverChanges : Prop :=
  ∀ s t : State, step s = .next t → t.cfg = s.cfg ∧ t.windowRead 0x000#12 = 0x4D4D0001#32 ∧
    ∀ (k : Fin 6) (j : Fin 8),
      t.windowRead (BitVec.ofNat 12 (0xC00 + 0x20 * k.val + 4 * j.val)) =
        s.windowRead (BitVec.ofNat 12 (0xC00 + 0x20 * k.val + 4 * j.val))

/-- R80, R75: while a command is in flight, no host access but a soft reset changes CUR, CMDLAST, a
data register, a point register, FLAG, ERRCODE or BUSY. -/
def Obligations.CommandInFlightIsUndisturbed : Prop :=
  ∀ (s : State) (a : Access), s.busy = true → isSoftReset s.cfg a = false →
    let t := s.busAccess a
    t.cur = s.cur ∧ t.cmdlast = s.cmdlast ∧ SameD s t ∧ SameP s t ∧ t.flag = s.flag ∧
      t.errcode = s.errcode ∧ t.busy = true ∧ NoDraw s t

/-- R40, R291: a command's result does not depend on its latency (the events are the model's choice, log
1). However many host accesses other than a soft reset come before the engine's turn, the registers,
FLAG and ERRCODE it leaves are those of its completion at once. -/
def Obligations.LatencyIsNotObservable : Prop :=
  ∀ (s t : State) (accs : List Access) (rest : List Event) (i : Instr),
    configWf s.cfg = true → s.busy = true → decode s.cur = .ok i →
    (∀ a ∈ accs, isSoftReset s.cfg a = false) →
    s.events = accs.map .bus ++ .engine :: rest → exec i s = .next t →
    ∃ u : State, core.run (accs.length + 1) s = .next u ∧ u.dregs = t.dregs ∧ u.pregs = t.pregs ∧
      u.flag = t.flag ∧ u.errcode = t.errcode ∧ u.busy = false ∧ u.done = true ∧
      u.entropy = t.entropy ∧ u.draws = t.draws ∧ u.events = rest

/-- R291, R293: a run is over exactly when no host access is still to come and BUSY = 0, and from every
state of a well-formed configuration that is so within one step for each event still to come and one more;
the observation of the run is that of the first such state. That the engine has the turn when no event is left is the model's
choice, its form of the fairness R291 assumes (log 1). -/
def Obligations.EveryRunEnds : Prop :=
  (∀ s : State, s.runOver = true ↔ (∀ a : Access, .bus a ∉ s.events) ∧ s.busy = false) ∧
  (∀ s : State, configWf s.cfg = true →
    ∃ (k : Nat) (t : State), k ≤ s.events.length + 1 ∧ core.run k s = .next t ∧ t.runOver = true ∧
      (∀ (j : Nat) (u : State), j < k → core.run j s = .next u → u.runOver = false) ∧
      State.runObservation (s.events.length + 1) s = some t.observe)

/-! ### Reset and the register window -/

/-- R280: a hardware reset puts every piece of state to its reset value, abandons a command in flight
(nothing of it is written and DONE is 0), and leaves ID and the curve parameter registers. The event is
an entry of the model's event list (its choice, log 1). -/
def Obligations.HardwareReset : Prop :=
  ∀ (s : State) (rest : List Event), configWf s.cfg = true → s.events = .hardReset :: rest →
    ∃ t, step s = .next t ∧ (∀ r : DReg, t.readD r = 0#256) ∧ (∀ r : PReg, t.readP r = .inf) ∧
      t.flag = false ∧ t.busy = false ∧ t.done = false ∧ t.werr = false ∧ t.errcode = 0#4 ∧
      t.ie = false ∧ t.cmdlast = 0#32 ∧ t.irq = false ∧ t.windowRead 0x000#12 = 0x4D4D0001#32 ∧
      ∀ (k : Fin 6) (j : Fin 8),
        t.windowRead (BitVec.ofNat 12 (0xC00 + 0x20 * k.val + 4 * j.val)) =
          s.windowRead (BitVec.ofNat 12 (0xC00 + 0x20 * k.val + 4 * j.val))

/-- R281: a write to CTRL with bit 1 set is exactly that reset, busy or not and whatever bit 0 is; no
other host access abandons a command; bit 1 of CTRL always reads 0. -/
def Obligations.SoftReset : Prop :=
  (∀ (s : State) (v : BusWord), v.getLsbD 1 = true →
    s.windowWrite 0x004#12 v = s.resetBlock ∧ (s.windowWrite 0x004#12 v).ie = false) ∧
  (∀ (s : State) (a : Access), s.busy = true → (s.busAccess a).busy = false →
    isSoftReset s.cfg a = true) ∧
  (∀ s : State, (s.windowRead 0x004#12).getLsbD 1 = false)

/-- R64, R66 to R71: what each word of the window reads: ID, CTRL, STATUS, CMD, the data registers, the
point registers, the six curve parameter registers (R38), and 0 for a reserved word. -/
def Obligations.WindowReadsTheRegisters : Prop :=
  ∀ s : State,
    s.windowRead 0x000#12 = 0x4D4D0001#32 ∧ s.windowRead 0x004#12 = 0#31 ++ BitVec.ofBool s.ie ∧
    s.windowRead 0x008#12 = 0#24 ++ s.errcode ++ BitVec.ofBool s.werr ++ BitVec.ofBool s.flag
      ++ BitVec.ofBool s.done ++ BitVec.ofBool s.busy ∧
    s.windowRead 0x00C#12 = s.cmdlast ∧
    (∀ (i : DReg) (j : Fin 8) (b : Nat), b < 32 →
      (s.windowRead (BitVec.ofNat 12 (0x100 + 0x20 * i.val + 4 * j.val))).getLsbD b =
        (s.readD i).getLsbD (224 - 32 * j.val + b)) ∧
    (∀ (i : PReg) (j : Fin 8) (x y : Word) (b : Nat), b < 32 → s.readP i = .aff x y →
      (s.windowRead (BitVec.ofNat 12 (0x400 + 0x80 * i.val + 4 * j.val))).getLsbD b =
        x.getLsbD (224 - 32 * j.val + b) ∧
      (s.windowRead (BitVec.ofNat 12 (0x420 + 0x80 * i.val + 4 * j.val))).getLsbD b =
        y.getLsbD (224 - 32 * j.val + b) ∧
      s.windowRead (BitVec.ofNat 12 (0x440 + 0x80 * i.val)) = 0#32) ∧
    (∀ (i : PReg) (j : Fin 8), s.readP i = .inf →
      s.windowRead (BitVec.ofNat 12 (0x400 + 0x80 * i.val + 4 * j.val)) = 0#32 ∧
      s.windowRead (BitVec.ofNat 12 (0x420 + 0x80 * i.val + 4 * j.val)) = 0#32 ∧
      s.windowRead (BitVec.ofNat 12 (0x440 + 0x80 * i.val)) = 1#32) ∧
    (∀ (j : Fin 8) (b : Nat), b < 32 →
      (s.windowRead (BitVec.ofNat 12 (0xC00 + 4 * j.val))).getLsbD b =
        s.cfg.curve.p.getLsbD (224 - 32 * j.val + b) ∧
      (s.windowRead (BitVec.ofNat 12 (0xC20 + 4 * j.val))).getLsbD b =
        s.cfg.curve.a.getLsbD (224 - 32 * j.val + b) ∧
      (s.windowRead (BitVec.ofNat 12 (0xC40 + 4 * j.val))).getLsbD b =
        s.cfg.curve.b.getLsbD (224 - 32 * j.val + b) ∧
      (s.windowRead (BitVec.ofNat 12 (0xC60 + 4 * j.val))).getLsbD b =
        s.cfg.curve.gx.getLsbD (224 - 32 * j.val + b) ∧
      (s.windowRead (BitVec.ofNat 12 (0xC80 + 4 * j.val))).getLsbD b =
        s.cfg.curve.gy.getLsbD (224 - 32 * j.val + b) ∧
      (s.windowRead (BitVec.ofNat 12 (0xCA0 + 4 * j.val))).getLsbD b =
        s.cfg.curve.n.getLsbD (224 - 32 * j.val + b)) ∧
    (∀ off : Offset, off.toNat % 4 = 0 →
      ((0x010 ≤ off.toNat ∧ off.toNat ≤ 0x0FF) ∨ (0x300 ≤ off.toNat ∧ off.toNat ≤ 0x3FF) ∨
        0xCC0 ≤ off.toNat ∨
        (0x400 ≤ off.toNat ∧ off.toNat < 0xC00 ∧ 0x44 ≤ off.toNat % 0x80)) →
      s.windowRead off = 0#32)

/-- R71, R72: an aligned reserved word reads 0, and a write to a reserved or read-only word changes
nothing, whether a command is in flight or not. -/
def Obligations.ReservedAndReadOnlyWords : Prop :=
  ∀ (s : State) (off : Offset) (v : BusWord), off.toNat % 4 = 0 →
    (((0x010 ≤ off.toNat ∧ off.toNat ≤ 0x0FF) ∨ (0x300 ≤ off.toNat ∧ off.toNat ≤ 0x3FF) ∨
        0xCC0 ≤ off.toNat ∨
        (0x400 ≤ off.toNat ∧ off.toNat < 0xC00 ∧ 0x44 ≤ off.toNat % 0x80)) →
      s.windowRead off = 0#32 ∧ s.windowWrite off v = s) ∧
    ((off.toNat = 0x000 ∨ (0x400 ≤ off.toNat ∧ off.toNat < 0xCC0)) → s.windowWrite off v = s)

/-- R62, R63: an access of another width than 32 bits, or at an offset that is no multiple of 4, gets a
bus error and changes nothing; a read then returns no data. The responses the host gets are kept in a
list, the model's choice (log 5). -/
def Obligations.BusErrorsHaveNoEffect : Prop :=
  ∀ (s : State) (width : Width) (addr : Nat) (off : Offset) (v : BusWord),
    windowOffset s.cfg.windowBase addr = some off → (width ≠ .w32 ∨ off.toNat % 4 ≠ 0) →
    s.busAccess (.read width addr)
      = { s with responses := s.responses ++ [.busError off] } ∧
    s.busAccess (.write width addr v)
      = { s with responses := s.responses ++ [.busError off] }

/-- R74, R76: an aligned 32-bit read answers the word the window holds and changes nothing else; an
access outside the window never reaches the block (R61). The answers are kept in a list, the model's
choice (log 5). -/
def Obligations.ReadsHaveNoSideEffect : Prop :=
  (∀ (s : State) (addr : Nat) (off : Offset), windowOffset s.cfg.windowBase addr = some off →
    off.toNat % 4 = 0 →
    s.busAccess (.read .w32 addr)
      = { s with responses := s.responses ++ [.data (s.windowRead off)] }) ∧
  (∀ (s : State) (width : Width) (addr : Nat) (v : BusWord),
    (addr < s.cfg.windowBase ∨ s.cfg.windowBase + 4096 ≤ addr) →
    s.busAccess (.read width addr) = s ∧ s.busAccess (.write width addr v) = s)

/-- R37, R28: a write to CMD is dropped with WERR while BUSY = 1, and else accepted: CMDLAST and CUR
take the word, BUSY is 1, DONE and ERRCODE are 0; a read of CMD returns CMDLAST. -/
def Obligations.CmdWrite : Prop :=
  ∀ (s : State) (w : BusWord),
    (s.busy = true → s.windowWrite 0x00C#12 w = { s with werr := true }) ∧
    (s.busy = false → s.windowWrite 0x00C#12 w =
      { s with cmdlast := w, cur := w, busy := true, done := false, errcode := 0#4 }) ∧
    s.windowRead 0x00C#12 = s.cmdlast

/-- R31, R34, R36, R45, R263: the STATUS word shows its fields and 0 above them; a write to STATUS
clears DONE and WERR where it has a 1 and changes nothing else; irq is IE and DONE, which a
completion raises under IE and a write of bit 1 or an issue clears. -/
def Obligations.StatusAndInterrupt : Prop :=
  (∀ s : State, s.windowRead 0x008#12 =
    0#24 ++ s.errcode ++ BitVec.ofBool s.werr ++ BitVec.ofBool s.flag ++ BitVec.ofBool s.done
      ++ BitVec.ofBool s.busy) ∧
  (∀ (s : State) (v : BusWord), s.windowWrite 0x008#12 v =
    { s with done := if v.getLsbD 1 then false else s.done,
             werr := if v.getLsbD 3 then false else s.werr }) ∧
  (∀ (s t : State) (i : Instr), exec i s = .next t → t.irq = s.ie) ∧
  (∀ (s : State) (v : BusWord), v.getLsbD 1 = true → (s.windowWrite 0x008#12 v).irq = false) ∧
  (∀ (s : State) (w : BusWord), s.busy = false → (s.windowWrite 0x00C#12 w).irq = false)

/-- R287, R68, R33: while BUSY = 1 a write to a data register's word only sets WERR, and a write to CTRL
without SRST still takes IE; while BUSY = 0 the word is replaced and no other word of any register. -/
def Obligations.DataWordAndCtrlWrites : Prop :=
  ∀ (s : State) (i : DReg) (j : Fin 8) (v : BusWord),
    let off : Offset := BitVec.ofNat 12 (0x100 + 0x20 * i.val + 4 * j.val)
    (s.busy = true → s.windowWrite off v = { s with werr := true }) ∧
    (s.busy = false →
      (s.windowWrite off v).windowRead off = v ∧
      (∀ off' : Offset, off'.toNat % 4 = 0 → off' ≠ off →
        (s.windowWrite off v).windowRead off' = s.windowRead off')) ∧
    (v.getLsbD 1 = false → s.windowWrite 0x004#12 v = { s with ie := v.getLsbD 0 } ∧
      (s.windowWrite 0x004#12 v).windowRead 0x004#12 = v &&& 1#32)

/-- R65: the eight words of a digest, written to a data register while BUSY = 0, make its value the
big-endian integer of the 32 bytes, and the eight reads give the same words back. -/
def Obligations.DigestWordsMakeTheDigest : Prop :=
  ∀ (s : State) (i : DReg) (d : Vector Byte 32), s.busy = false →
    let t := (List.finRange 8).foldl (fun (u : State) (j : Fin 8) =>
      u.windowWrite (BitVec.ofNat 12 (0x100 + 0x20 * i.val + 4 * j.val)) (digestWord d j)) s
    (t.readD i).toNat = digestValue d ∧ (∀ r : DReg, r ≠ i → t.readD r = s.readD r) ∧
    ∀ j : Fin 8, t.windowRead (BitVec.ofNat 12 (0x100 + 0x20 * i.val + 4 * j.val)) = digestWord d j
end

