-- ==== Sys2Proof/Laws/Encoding.lean ====
section
/-! SUPPORT. The fields of a packed word (R90), and the opcode map read both ways (R96). -/

namespace Sys2Proof.Laws

theorem regField_val (w : BusWord) (lo : Nat) :
    (regField w lo).val = w.toNat / 2 ^ lo % 16 := by
  simp [regField, Fin.ofNat, BitVec.extractLsb'_toNat, Nat.shiftRight_eq_div_pow]

theorem opcField_eq (w : BusWord) : opcField w = w.toNat / 2 ^ 24 := by
  have := w.isLt
  simp only [opcField, BitVec.extractLsb'_toNat, Nat.shiftRight_eq_div_pow]
  omega

theorem fieldRsv_eq (w : BusWord) : fieldRsv w = w.toNat % 2 ^ 7 := by
  simp [fieldRsv, BitVec.extractLsb'_toNat]

theorem fieldM_eq (w : BusWord) : fieldM w = decide (w.toNat / 2 ^ 7 % 2 = 1) := by
  simp only [fieldM, BitVec.getLsbD, Nat.testBit_eq_decide_div_mod_eq]

/-- The number a packed word stands for. -/
theorem packWord_toNat {opc : Nat} (h : opc < 256) (a b c d : Fin 16) (m : Bool) :
    (packWord opc a b c d m).toNat = opc * 2 ^ 24 + a.val * 2 ^ 20 + b.val * 2 ^ 16
      + c.val * 2 ^ 12 + d.val * 2 ^ 8 + m.toNat * 2 ^ 7 := by
  have := a.isLt; have := b.isLt; have := c.isLt; have := d.isLt
  have hm : m.toNat ≤ 1 := Bool.toNat_le m
  simp only [packWord, BitVec.toNat_ofNat]
  omega

/-- The fields of a packed word are the fields packed (R90). -/
theorem packWord_fields {opc : Nat} (h : opc < 256) (a b c d : Fin 16) (m : Bool) :
    opcField (packWord opc a b c d m) = opc ∧ fieldA (packWord opc a b c d m) = a ∧
      fieldB (packWord opc a b c d m) = b ∧ fieldC (packWord opc a b c d m) = c ∧
      fieldD (packWord opc a b c d m) = d ∧ fieldM (packWord opc a b c d m) = m ∧
      fieldRsv (packWord opc a b c d m) = 0 := by
  have hw := packWord_toNat h a b c d m
  have := a.isLt; have := b.isLt; have := c.isLt; have := d.isLt
  have hm : m.toNat ≤ 1 := Bool.toNat_le m
  refine ⟨?_, Fin.ext ?_, Fin.ext ?_, Fin.ext ?_, Fin.ext ?_, ?_, ?_⟩
  · rw [opcField_eq, hw]; omega
  · rw [fieldA, regField_val, hw]; omega
  · rw [fieldB, regField_val, hw]; omega
  · rw [fieldC, regField_val, hw]; omega
  · rw [fieldD, regField_val, hw]; omega
  · rw [fieldM_eq, hw]
    cases m <;> simp only [Bool.toNat_false, Bool.toNat_true, decide_eq_true_eq,
      decide_eq_false_iff_not] <;> omega
  · rw [fieldRsv_eq, hw]; omega

/-- A word is its fields packed, when RSV is 0 (R90). -/
theorem packWord_of_fields (w : BusWord) (h : fieldRsv w = 0) :
    packWord (opcField w) (fieldA w) (fieldB w) (fieldC w) (fieldD w) (fieldM w) = w := by
  have hw := w.isLt
  have ho : opcField w < 256 := by rw [opcField_eq]; omega
  apply BitVec.eq_of_toNat_eq
  rw [packWord_toNat ho, opcField_eq]
  rw [fieldRsv_eq] at h
  simp only [fieldA, fieldB, fieldC, fieldD, regField_val, fieldM_eq]
  have hm : (decide (w.toNat / 2 ^ 7 % 2 = 1)).toNat = w.toNat / 2 ^ 7 % 2 := by
    by_cases hb : w.toNat / 2 ^ 7 % 2 = 1
    · simp only [hb, decide_true, Bool.toNat_true]
    · simp only [hb, decide_false, Bool.toNat_false]; omega
  rw [hm]
  omega

theorem code_lt (o : Opcode) : o.code < 256 := by cases o <;> decide

@[simp] theorem ofCode_code (o : Opcode) : Opcode.ofCode o.code = some o := by cases o <;> rfl

theorem code_of_ofCode {n : Nat} {o : Opcode} (h : Opcode.ofCode n = some o) : o.code = n := by
  unfold Opcode.ofCode at h
  split at h <;> first | (cases h; rfl) | cases h

/-- A word whose fields pass every check of R100 decodes to the command of its fields. -/
theorem decode_of_fields {w : BusWord} {o : Opcode} (ho : Opcode.ofCode (opcField w) = some o)
    (hr : fieldRsv w = 0) (hm : fieldM w = true → o.usesM = true)
    (hu : unusedFieldSet o (fieldA w) (fieldB w) (fieldC w) (fieldD w) = false)
    (hs : o = .sign → fieldA w ≠ fieldD w) :
    decode w = .ok (instrOf o (fieldA w) (fieldB w) (fieldC w) (fieldD w)
      (modulusOf (fieldM w))) := by
  have hm' : ¬ (fieldM w && !o.usesM) = true := by
    simp only [Bool.and_eq_true, Bool.not_eq_true', not_and, Bool.not_eq_false]; exact hm
  unfold decode
  rw [ho]
  simp only []
  rw [if_neg (not_not.2 hr), if_neg hm', if_neg (by simp [hu]), if_neg (by tauto)]

/-- A word that decodes passed every check of R100. -/
theorem fields_of_decode {w : BusWord} {i : Instr} (h : decode w = .ok i) :
    ∃ o, Opcode.ofCode (opcField w) = some o ∧ fieldRsv w = 0 ∧
      (fieldM w = true → o.usesM = true) ∧
      unusedFieldSet o (fieldA w) (fieldB w) (fieldC w) (fieldD w) = false ∧
      (o = .sign → fieldA w ≠ fieldD w) ∧
      i = instrOf o (fieldA w) (fieldB w) (fieldC w) (fieldD w) (modulusOf (fieldM w)) := by
  unfold decode at h
  split at h
  · cases h
  · rename_i o ho
    split at h
    · cases h
    split at h
    · cases h
    split at h
    · cases h
    split at h
    · cases h
    · refine ⟨o, ho, by tauto, ?_, by simp_all, by tauto, by injection h with h; exact h.symm⟩
      rename_i hm _ _
      intro hM
      by_contra hc
      simp [hM, hc] at hm

/-- The packed word of an opcode with legal fields decodes to the command of those fields. -/
theorem decode_packWord {o : Opcode} {a b c d : Fin 16} {m : Modulus}
    (hm : m = .n → o.usesM = true) (hu : unusedFieldSet o a b c d = false)
    (hs : o = .sign → a ≠ d) :
    decode (packWord o.code a b c d m.bit) = .ok (instrOf o a b c d m) := by
  obtain ⟨h1, h2, h3, h4, h5, h6, h7⟩ := packWord_fields (code_lt o) a b c d m.bit
  generalize packWord o.code a b c d m.bit = w at *
  subst h2 h3 h4 h5
  have hb : modulusOf (fieldM w) = m := by rw [h6]; cases m <;> rfl
  rw [decode_of_fields (by rw [h1, ofCode_code]) h7 ?_ hu hs, hb]
  intro h
  rw [h6] at h
  cases m
  · cases h
  · exact hm rfl

end Sys2Proof.Laws
end

