-- ==== Sys2Proof/Laws/Modular.lean ====
section
/-! SUPPORT. Laws of the modular arithmetic: residues, results that fit a register, and the inverse. -/

namespace Sys2Proof.Laws

open Sys2Proof.Machine

theorem modulo_cast (a : Int) {m : Nat} (hm : 0 < m) : ((modulo a m : Nat) : Int) = a % m := by
  have : (0 : Int) ≤ a % m := Int.emod_nonneg _ (by omega)
  simp [modulo, Int.toNat_of_nonneg this]

theorem modulo_lt (a : Int) {m : Nat} (hm : 0 < m) : modulo a m < m := by
  have h1 := modulo_cast a hm
  have h2 := Int.emod_lt_of_pos a (show (0 : Int) < m by omega)
  omega

@[simp] theorem modulo_natCast (a m : Nat) : modulo (a : Int) m = a % m := by
  simp only [modulo]
  rw [← Int.natCast_mod]
  exact Int.toNat_natCast _

theorem toWord_toNat {a : Nat} (h : a < 2 ^ 256) : (toWord a).toNat = a := by
  simp only [toWord, BitVec.toNat_ofNat]
  exact Nat.mod_eq_of_lt h

/-- A residue modulo a register's value fits a register (R121). -/
theorem toWord_modulo_toNat (a : Int) {m : Word} (hm : 0 < m.toNat) :
    (toWord (modulo a m.toNat)).toNat = modulo a m.toNat :=
  toWord_toNat (lt_trans (modulo_lt a hm) m.isLt)

/-- The coefficient of Euclid's algorithm: from remainders congruent to multiples of v, the last one
is the gcd, is below the bound, and is congruent to its coefficient times v. -/
theorem euclid_spec (v m : Nat) (hm : 1 < m) :
    ∀ (k r0 t0 r1 t1 : Nat), r1 < 2 ^ k → r1 < r0 → t0 < m → t1 < m →
      (t0 * v) % m = r0 % m → (t1 * v) % m = r1 % m →
      ∀ g, euclid (2 * k) m r0 t0 r1 t1 = g →
        g.1 = Nat.gcd r0 r1 ∧ g.2 < m ∧ (g.2 * v) % m = g.1 % m := by
  have stop : ∀ (f r0 t0 t1 : Nat), euclid f m r0 t0 0 t1 = (r0, t0) := by
    intro f r0 t0 t1
    cases f <;> simp [euclid]
  have hnew : ∀ (r0 t0 r1 t1 : Nat), (t0 * v) % m = r0 % m → (t1 * v) % m = r1 % m →
      (modulo ((t0 : Int) - (r0 / r1 : Nat) * t1) m * v) % m = (r0 % r1) % m := by
    intro r0 t0 r1 t1 h0 h1
    have hc := modulo_cast ((t0 : Int) - (r0 / r1 : Nat) * t1) (m := m) (by omega)
    have h0' : (t0 * v : Int) ≡ r0 [ZMOD m] := by exact_mod_cast (Int.natCast_modEq_iff.2 h0)
    have h1' : (t1 * v : Int) ≡ r1 [ZMOD m] := by exact_mod_cast (Int.natCast_modEq_iff.2 h1)
    have hq : (r0 : Int) = r1 * (r0 / r1 : Nat) + (r0 % r1 : Nat) := by
      exact_mod_cast (Nat.div_add_mod r0 r1).symm
    have key : ((modulo ((t0 : Int) - (r0 / r1 : Nat) * t1) m * v : Nat) : Int) ≡
        ((r0 % r1 : Nat) : Int) [ZMOD m] := by
      rw [Nat.cast_mul, hc]
      calc (((t0 : Int) - (r0 / r1 : Nat) * t1) % m * v)
          ≡ ((t0 : Int) - (r0 / r1 : Nat) * t1) * v [ZMOD m] :=
            (Int.mod_modEq _ _).mul_right _
        _ = t0 * v - (r0 / r1 : Nat) * (t1 * v) := by ring
        _ ≡ r0 - (r0 / r1 : Nat) * r1 [ZMOD m] := h0'.sub (h1'.mul_left _)
        _ = ((r0 % r1 : Nat) : Int) := by linarith [hq]
    exact Int.natCast_modEq_iff.1 key
  intro k
  induction k with
  | zero =>
    intro r0 t0 r1 t1 hk _ ht0 _ h0 _ g hg
    obtain rfl : r1 = 0 := by simpa using hk
    rw [stop] at hg
    subst hg
    exact ⟨by simp, ht0, h0⟩
  | succ k ih =>
    intro r0 t0 r1 t1 hk hlt ht0 ht1 h0 h1 g hg
    by_cases hr1 : r1 = 0
    · subst hr1
      rw [stop] at hg
      subst hg
      exact ⟨by simp, ht0, h0⟩
    · rw [show 2 * (k + 1) = 2 * k + 1 + 1 by ring, euclid, if_neg hr1] at hg
      have h2 := hnew r0 t0 r1 t1 h0 h1
      have hr2 : r0 % r1 < r1 := Nat.mod_lt _ (by omega)
      have ht2 := modulo_lt ((t0 : Int) - (r0 / r1 : Nat) * t1) (m := m) (by omega)
      have hgcd : Nat.gcd r0 r1 = Nat.gcd r1 (r0 % r1) := by
        rw [Nat.gcd_comm r0 r1, Nat.gcd_rec r1 r0, Nat.gcd_comm]
      by_cases hz : r0 % r1 = 0
      · rw [hz, stop] at hg
        subst hg
        exact ⟨by rw [hgcd, hz, Nat.gcd_zero_right], ht1, h1⟩
      · rw [euclid, if_neg hz] at hg
        have h3 := hnew r1 t1 (r0 % r1) _ h1 h2
        have hr3 : r1 % (r0 % r1) < r0 % r1 := Nat.mod_lt _ (by omega)
        have hhalf : r1 % (r0 % r1) < 2 ^ k := by
          have hq : 1 ≤ r1 / (r0 % r1) := Nat.div_pos hr2.le (by omega)
          have hdm := Nat.div_add_mod r1 (r0 % r1)
          have : (r0 % r1) * 1 ≤ (r0 % r1) * (r1 / (r0 % r1)) := Nat.mul_le_mul_left _ hq
          rw [Nat.pow_succ] at hk
          omega
        have := ih _ _ _ _ hhalf hr3 ht2 (modulo_lt _ (by omega)) h2 h3 g hg
        have hgcd2 : Nat.gcd r1 (r0 % r1) = Nat.gcd (r0 % r1) (r1 % (r0 % r1)) := by
          rw [Nat.gcd_comm r1, Nat.gcd_rec (r0 % r1) r1, Nat.gcd_comm]
        exact ⟨by rw [hgcd, hgcd2]; exact this.1, this.2⟩

/-- invmod is R15's inverse: where v is coprime to m, the value t with 1 ≤ t < m and v t = 1 mod m. -/
theorem invmod_spec {v m : Nat} (hm : 1 < m) (hm2 : m ≤ 2 ^ 256) (hv : Nat.gcd (v % m) m = 1) :
    1 ≤ invmod v m ∧ invmod v m < m ∧ (v * invmod v m) % m = 1 := by
  have hlt : v % m < m := Nat.mod_lt _ (by omega)
  obtain ⟨h1, h2, h3⟩ := euclid_spec v m hm 256 m 0 (v % m) 1 (by omega) hlt (by omega) hm
    (by simp) (by simp) _ rfl
  have hg : (euclid (2 * 256) m m 0 (v % m) 1).1 = 1 := by rw [h1, Nat.gcd_comm, hv]
  have hinv : invmod v m = (euclid (2 * 256) m m 0 (v % m) 1).2 := by
    show (if (euclid (2 * 256) m m 0 (v % m) 1).1 = 1 then _ else _) = _
    rw [if_pos hg]
  rw [hinv]
  rw [hg, Nat.mod_eq_of_lt hm, Nat.mul_comm] at h3
  refine ⟨?_, h2, h3⟩
  rcases Nat.eq_zero_or_pos (euclid (2 * 256) m m 0 (v % m) 1).2 with h | h
  · rw [h] at h3
    simp at h3
  · exact h

/-- R15's inverse is the only one. -/
theorem invmod_unique {v m t : Nat} (hm : 1 < m) (hm2 : m ≤ 2 ^ 256)
    (hv : Nat.gcd (v % m) m = 1) (ht : t < m) (h : (v * t) % m = 1) : t = invmod v m := by
  obtain ⟨_, h2, h3⟩ := invmod_spec hm hm2 hv
  have hc : Nat.Coprime m v := by
    rw [Nat.coprime_comm, Nat.Coprime, ← hv, ← Nat.gcd_rec, Nat.gcd_comm]
  have : v * t ≡ v * invmod v m [MOD m] := by rw [Nat.ModEq, h, h3]
  exact (Nat.ModEq.cancel_left_of_coprime hc this).eq_of_lt_of_lt ht h2

/-- R is invertible modulo an odd modulus, so Rinv_M is its inverse (R126). -/
theorem montRadixInv_spec {m : Nat} (hm : 1 < m) (hm2 : m ≤ 2 ^ 256) (ho : m % 2 = 1) :
    1 ≤ montRadixInv m ∧ montRadixInv m < m ∧ (montRadix * montRadixInv m) % m = 1 := by
  refine invmod_spec hm hm2 ?_
  rw [← Nat.gcd_rec, montRadix]
  exact (Nat.coprime_pow_right_iff (by norm_num) _ _).2
    ((Nat.coprime_two_right).2 (Nat.odd_iff.2 ho))

/-! The value of each field command's result (R122 to R131). -/

theorem modAdd_toNat (a b : Word) {m : Word} (hm : 0 < m.toNat) :
    (modAdd a b m.toNat).toNat = (a.toNat + b.toNat) % m.toNat := by
  rw [modAdd, toWord_modulo_toNat _ hm, ← Nat.cast_add, modulo_natCast]

theorem modSub_cast (a b : Word) {m : Word} (hm : 0 < m.toNat) :
    ((modSub a b m.toNat).toNat : Int) = ((a.toNat : Int) - b.toNat) % m.toNat := by
  rw [modSub, toWord_modulo_toNat _ hm, modulo_cast _ hm]

theorem modNeg_cast (a : Word) {m : Word} (hm : 0 < m.toNat) :
    ((modNeg a m.toNat).toNat : Int) = (0 - (a.toNat : Int)) % m.toNat := by
  rw [modNeg, toWord_modulo_toNat _ hm, modulo_cast _ hm]

theorem modRed_toNat (a : Word) {m : Word} (hm : 0 < m.toNat) :
    (modRed a m.toNat).toNat = a.toNat % m.toNat := by
  rw [modRed, toWord_modulo_toNat _ hm, modulo_natCast]

theorem montMul_toNat (a b : Word) {m : Word} (hm : 0 < m.toNat) :
    (montMul a b m.toNat).toNat = (a.toNat * b.toNat * montRadixInv m.toNat) % m.toNat := by
  rw [montMul, toWord_modulo_toNat _ hm, modulo_natCast]

theorem modMul_toNat (a b : Word) {m : Word} (hm : 0 < m.toNat) :
    (modMul a b m.toNat).toNat = (a.toNat * b.toNat) % m.toNat := by
  rw [modMul, toWord_modulo_toNat _ hm, modulo_natCast]

theorem toMont_toNat (a : Word) {m : Word} (hm : 0 < m.toNat) :
    (toMont a m.toNat).toNat = (a.toNat * montRadix) % m.toNat := by
  rw [toMont, toWord_modulo_toNat _ hm, modulo_natCast]

theorem fromMont_toNat (a : Word) {m : Word} (hm : 0 < m.toNat) :
    (fromMont a m.toNat).toNat = (a.toNat * montRadixInv m.toNat) % m.toNat := by
  rw [fromMont, toWord_modulo_toNat _ hm, modulo_natCast]

/-- Congruent integers have the same residue. -/
theorem modulo_congr {a b : Int} {m : Nat} (h : a ≡ b [ZMOD m]) : modulo a m = modulo b m := by
  rw [modulo, modulo, h]

end Sys2Proof.Laws
end

