-- ==== Sys2Proof/Laws/Group.lean ====
section
/-! SUPPORT. The group law read in the field of p elements: what ptDbl, ptAdd and smul answer, and their
tie to the addition of points of a Weierstrass curve. -/

namespace Sys2Proof.Laws

open Sys2Proof.Machine

theorem ptEq_eq_decide (P Q : Point) : ptEq P Q = decide (P = Q) := by
  rcases P with _ | ⟨x, y⟩ <;> rcases Q with _ | ⟨x', y'⟩
  · rfl
  · simp [ptEq]
  · simp [ptEq]
  · rw [ptEq, Bool.eq_iff_iff]
    simp

/-- A residue is congruent to the integer it comes from. -/
theorem modulo_zmod (a : Int) {m : Nat} (hm : 0 < m) : ((modulo a m : Nat) : ZMod m) = (a : ZMod m) := by
  have h : (((modulo a m : Nat) : Int) : ZMod m) = ((a % m : Int) : ZMod m) := by
    rw [modulo_cast a hm]
  simpa using h

theorem curveWf_bounds {c : Curve} (h : curveWf c = true) :
    3 ≤ c.p.toNat ∧ c.p.toNat % 2 = 1 ∧ c.p.toNat ≤ 2 ^ 256 ∧ 3 ≤ c.n.toNat ∧ c.n.toNat % 2 = 1 ∧
      c.n.toNat ≤ 2 ^ 256 := by
  simp only [curveWf, Bool.and_eq_true, decide_eq_true_eq, beq_iff_eq] at h
  have := c.p.isLt
  have := c.n.isLt
  omega

/-- The base point of a well-formed CURVE is a valid point (R9, R165). -/
theorem basePoint_valid {c : Curve} (h : curveWf c = true) : pointValid c (basePoint c) = true := by
  simp only [curveWf, Bool.and_eq_true, decide_eq_true_eq] at h
  simp only [basePoint, pointValid, Bool.and_eq_true, decide_eq_true_eq]
  exact ⟨⟨h.1.1.2, h.1.2⟩, h.2⟩

/-- A word as an element of the field of p elements. -/
abbrev elt (c : Curve) (x : Word) : ZMod c.p.toNat := (x.toNat : ZMod c.p.toNat)

/-- The curve equation as an equation of the field. -/
theorem onCurve_iff_eq {c : Curve} (hp : 0 < c.p.toNat) (x y : Word) :
    onCurve c x y = true ↔ elt c y ^ 2 = elt c x ^ 3 + elt c c.a * elt c x + elt c c.b := by
  rw [onCurve, beq_iff_eq, ← Int.natCast_inj, modulo_cast _ hp, Nat.cast_zero,
    ← Int.dvd_iff_emod_eq_zero, ← ZMod.intCast_zmod_eq_zero_iff_dvd]
  push_cast
  rw [sub_eq_zero]
  constructor <;> intro h <;> linear_combination h

/-- The curve equation as an equation of residues (R15, R160). -/
theorem onCurve_iff_mod {c : Curve} (hp : 0 < c.p.toNat) (x y : Word) :
    onCurve c x y = true ↔ (y.toNat * y.toNat) % c.p.toNat =
      (x.toNat ^ 3 + c.a.toNat * x.toNat + c.b.toNat) % c.p.toNat := by
  rw [onCurve_iff_eq hp, ← Nat.ModEq, ← ZMod.natCast_eq_natCast_iff]
  push_cast
  constructor <;> intro h <;> linear_combination h

theorem elt_toWord_modulo {c : Curve} (hp : 0 < c.p.toNat) (a : Int) :
    elt c (toWord (modulo a c.p.toNat)) = (a : ZMod c.p.toNat) := by
  rw [elt, toWord_modulo_toNat a hp, modulo_zmod a hp]

/-- Two words below p are equal when they are equal in the field. -/
theorem elt_inj {c : Curve} {x y : Word} (hx : x.toNat < c.p.toNat) (hy : y.toNat < c.p.toNat)
    (h : elt c x = elt c y) : x = y := by
  apply BitVec.eq_of_toNat_eq
  rw [ZMod.natCast_eq_natCast_iff] at h
  exact h.eq_of_lt_of_lt hx hy

/-- What chord answers: reduced coordinates that satisfy the two formulas in the field. -/
theorem chord_spec {c : Curve} (hp : 0 < c.p.toNat) (lam : Nat) (x1 y1 x2 : Word) :
    ∃ x3 y3, chord c lam x1 y1 x2 = .aff x3 y3 ∧ x3.toNat < c.p.toNat ∧ y3.toNat < c.p.toNat ∧
      elt c x3 = (lam : ZMod c.p.toNat) ^ 2 - elt c x1 - elt c x2 ∧
      elt c y3 = (lam : ZMod c.p.toNat) * (elt c x1 - elt c x3) - elt c y1 := by
  refine ⟨_, _, rfl, ?_, ?_, ?_, ?_⟩
  · rw [toWord_modulo_toNat _ hp]; exact modulo_lt _ hp
  · rw [toWord_modulo_toNat _ hp]; exact modulo_lt _ hp
  · rw [elt_toWord_modulo hp]; push_cast; ring
  · rw [elt_toWord_modulo hp, elt_toWord_modulo hp]; push_cast
    rw [modulo_zmod _ hp]; push_cast; ring

/-- An inverse in the field, for a prime p. -/
theorem invmod_zmod {c : Curve} (hp : Nat.Prime c.p.toNat) {d : Nat} (hd : d < c.p.toNat)
    (h0 : d ≠ 0) : (d : ZMod c.p.toNat) * (invmod d c.p.toNat : ZMod c.p.toNat) = 1 := by
  have hg : Nat.gcd (d % c.p.toNat) c.p.toNat = 1 := by
    rw [Nat.mod_eq_of_lt hd]
    exact ((Nat.Prime.coprime_iff_not_dvd hp).2 (Nat.not_dvd_of_pos_of_lt (by omega) hd)).symm
  obtain ⟨_, _, h⟩ := invmod_spec hp.one_lt c.p.isLt.le hg
  have h2 : ((d * invmod d c.p.toNat % c.p.toNat : Nat) : ZMod c.p.toNat) = ((1 : Nat) : ZMod _) := by
    rw [h]
  simpa using h2

/-- What ptDbl answers for an affine point, p prime: ARITHMETIC for 2 y = 0 in the field, else the
tangent's point. -/
theorem ptDbl_aff {c : Curve} (hp : Nat.Prime c.p.toNat) (x y : Word) :
    (2 * elt c y = 0 ∧ ptDbl c (.aff x y) = .error .arithmetic) ∨
    (2 * elt c y ≠ 0 ∧ ∃ x3 y3, ptDbl c (.aff x y) = .ok (.aff x3 y3) ∧ x3.toNat < c.p.toNat ∧
      y3.toNat < c.p.toNat ∧ ∃ lam : ZMod c.p.toNat,
        lam * (2 * elt c y) = 3 * elt c x ^ 2 + elt c c.a ∧
        elt c x3 = lam ^ 2 - elt c x - elt c x ∧ elt c y3 = lam * (elt c x - elt c x3) - elt c y) := by
  have hp0 := hp.pos
  have hd : ((modulo (2 * (y.toNat : Int)) c.p.toNat : Nat) : ZMod c.p.toNat) = 2 * elt c y := by
    rw [modulo_zmod _ hp0]; push_cast; rfl
  have hlt := modulo_lt (2 * (y.toNat : Int)) hp0
  simp only [ptDbl]
  generalize modulo (2 * (y.toNat : Int)) c.p.toNat = d at *
  by_cases h : d = 0
  · left
    subst h
    exact ⟨by rw [← hd]; simp, by simp⟩
  · right
    have hinv := invmod_zmod hp hlt h
    rw [hd] at hinv
    refine ⟨fun h0 => by rw [h0, zero_mul] at hinv; have := Fact.mk hp; exact zero_ne_one hinv, ?_⟩
    rw [if_neg h]
    obtain ⟨x3, y3, he, hx, hy, e1, e2⟩ := chord_spec hp0
      (modulo ((3 * (x.toNat : Int) * x.toNat + c.a.toNat) * invmod d c.p.toNat) c.p.toNat) x y x
    refine ⟨x3, y3, by rw [he], hx, hy, _, ?_, e1, e2⟩
    rw [modulo_zmod _ hp0]
    push_cast
    linear_combination (3 * elt c x ^ 2 + elt c c.a) * hinv

/-- What ptAdd answers for two reduced affine points, p prime: INF for opposite points, the double of
equal points, ARITHMETIC for equal x otherwise, else the chord's point. -/
theorem ptAdd_aff {c : Curve} (hp : Nat.Prime c.p.toNat) {x1 y1 x2 y2 : Word}
    (hx1 : x1.toNat < c.p.toNat) (hy1 : y1.toNat < c.p.toNat) (hx2 : x2.toNat < c.p.toNat)
    (hy2 : y2.toNat < c.p.toNat) :
    (elt c x1 = elt c x2 ∧ elt c y1 = - elt c y2 ∧ ptAdd c (.aff x1 y1) (.aff x2 y2) = .ok .inf) ∨
    (elt c x1 = elt c x2 ∧ elt c y1 ≠ - elt c y2 ∧ y1 = y2 ∧ x1 = x2 ∧
      ptAdd c (.aff x1 y1) (.aff x2 y2) = ptDbl c (.aff x1 y1)) ∨
    (elt c x1 = elt c x2 ∧ elt c y1 ≠ - elt c y2 ∧ elt c y1 ≠ elt c y2 ∧
      ptAdd c (.aff x1 y1) (.aff x2 y2) = .error .arithmetic) ∨
    (elt c x1 ≠ elt c x2 ∧ ∃ x3 y3, ptAdd c (.aff x1 y1) (.aff x2 y2) = .ok (.aff x3 y3) ∧
      x3.toNat < c.p.toNat ∧ y3.toNat < c.p.toNat ∧ ∃ lam : ZMod c.p.toNat,
        lam * (elt c x2 - elt c x1) = elt c y2 - elt c y1 ∧
        elt c x3 = lam ^ 2 - elt c x1 - elt c x2 ∧
        elt c y3 = lam * (elt c x1 - elt c x3) - elt c y1) := by
  have hp0 := hp.pos
  have hneg : y1.toNat = modulo (0 - (y2.toNat : Int)) c.p.toNat ↔ elt c y1 = - elt c y2 := by
    have hm := modulo_lt (0 - (y2.toNat : Int)) hp0
    have hz := modulo_zmod (0 - (y2.toNat : Int)) hp0
    have he : ((0 - (y2.toNat : Int) : Int) : ZMod c.p.toNat) = - elt c y2 := by push_cast; ring
    rw [he] at hz
    rw [← hz, elt, ZMod.natCast_eq_natCast_iff]
    exact ⟨fun h => by rw [h], fun h => h.eq_of_lt_of_lt hy1 hm⟩
  have hxx : x1 = x2 ↔ elt c x1 = elt c x2 := ⟨fun h => by rw [h], elt_inj hx1 hx2⟩
  have hyy : y1 = y2 ↔ elt c y1 = elt c y2 := ⟨fun h => by rw [h], elt_inj hy1 hy2⟩
  have hd : ((modulo ((x2.toNat : Int) - x1.toNat) c.p.toNat : Nat) : ZMod c.p.toNat)
      = elt c x2 - elt c x1 := by
    rw [modulo_zmod _ hp0]; push_cast; rfl
  have hlt := modulo_lt ((x2.toNat : Int) - x1.toNat) hp0
  simp only [ptAdd]
  by_cases hx : elt c x1 = elt c x2
  · by_cases hy : elt c y1 = - elt c y2
    · left
      exact ⟨hx, hy, by rw [if_pos ⟨hxx.2 hx, hneg.2 hy⟩]⟩
    · right
      rw [if_neg (by tauto)]
      by_cases hy' : y1 = y2
      · left
        exact ⟨hx, hy, hy', hxx.2 hx, by rw [if_pos ⟨hxx.2 hx, hy'⟩]⟩
      · right; left
        refine ⟨hx, hy, by tauto, ?_⟩
        rw [if_neg (by tauto), hxx.2 hx]
        simp [modulo]
  · right; right; right
    refine ⟨hx, ?_⟩
    rw [if_neg (by tauto), if_neg (by tauto)]
    generalize modulo ((x2.toNat : Int) - x1.toNat) c.p.toNat = d at *
    have h : d ≠ 0 := by
      rintro rfl
      rw [Nat.cast_zero] at hd
      exact hx (sub_eq_zero.1 hd.symm).symm
    have hinv := invmod_zmod hp hlt h
    rw [hd] at hinv
    rw [if_neg h]
    obtain ⟨x3, y3, he, hx3, hy3, e1, e2⟩ := chord_spec hp0
      (modulo (((y2.toNat : Int) - y1.toNat) * invmod d c.p.toNat) c.p.toNat) x1 y1 x2
    refine ⟨x3, y3, by rw [he], hx3, hy3, _, ?_, e1, e2⟩
    rw [modulo_zmod _ hp0]
    push_cast
    linear_combination (elt c y2 - elt c y1) * hinv

/-- The Weierstrass curve of a CURVE over the field of p elements. -/
def weierstrass (c : Curve) : WeierstrassCurve.Affine (ZMod c.p.toNat) :=
  ⟨0, 0, 0, elt c c.a, elt c c.b⟩

theorem weierstrass_equation (c : Curve) (x y : ZMod c.p.toNat) :
    (weierstrass c).Equation x y ↔ y ^ 2 = x ^ 3 + elt c c.a * x + elt c c.b := by
  rw [WeierstrassCurve.Affine.equation_iff]
  simp [weierstrass]

theorem pointValid_aff {c : Curve} (hp : 0 < c.p.toNat) (x y : Word) :
    pointValid c (.aff x y) = true ↔ x.toNat < c.p.toNat ∧ y.toNat < c.p.toNat ∧
      (weierstrass c).Equation (elt c x) (elt c y) := by
  rw [weierstrass_equation, ← onCurve_iff_eq hp]
  simp [pointValid, and_assoc]

/-- The point of the Weierstrass curve a valid point value stands for. -/
def Stands (c : Curve) : Point → (weierstrass c).Point → Prop
  | .inf, A => A = 0
  | .aff x y, A => x.toNat < c.p.toNat ∧ y.toNat < c.p.toNat ∧
      ∃ h : (weierstrass c).Nonsingular (elt c x) (elt c y), A = .some _ _ h

/-- A point value is determined by the point it stands for. -/
theorem Stands_inj {c : Curve} {P Q : Point} {A : (weierstrass c).Point} (hP : Stands c P A)
    (hQ : Stands c Q A) : P = Q := by
  rcases P with _ | ⟨x, y⟩ <;> rcases Q with _ | ⟨x', y'⟩
  · rfl
  · obtain ⟨_, _, h, rfl⟩ := hQ
    exact absurd hP (WeierstrassCurve.Affine.Point.some_ne_zero h)
  · obtain ⟨_, _, h, rfl⟩ := hP
    exact absurd hQ (WeierstrassCurve.Affine.Point.some_ne_zero h)
  · obtain ⟨hx, hy, h, rfl⟩ := hP
    obtain ⟨hx', hy', h', e⟩ := hQ
    rw [WeierstrassCurve.Affine.Point.some.injEq] at e
    rw [elt_inj hx hx' e.1, elt_inj hy hy' e.2]

section
variable {c : Curve} [hp : Fact (Nat.Prime c.p.toNat)]

theorem weierstrass_negY (x y : ZMod c.p.toNat) : (weierstrass c).negY x y = - y := by
  simp [WeierstrassCurve.Affine.negY, weierstrass]

theorem two_ne_zero_of_odd (h2 : c.p.toNat % 2 = 1) : (2 : ZMod c.p.toNat) ≠ 0 := by
  intro h
  have : ((2 : Nat) : ZMod c.p.toNat) = 0 := by exact_mod_cast h
  rw [ZMod.natCast_eq_zero_iff] at this
  have := (Nat.prime_dvd_prime_iff_eq hp.out Nat.prime_two).1 this
  omega

/-- The coordinates of the sum, from a slope and the formulas of R174 and R176. -/
theorem sum_coordinates {x1 y1 x2 y2 x3 y3 lam : ZMod c.p.toNat}
    (hs : (weierstrass c).slope x1 x2 y1 y2 = lam) (e1 : x3 = lam ^ 2 - x1 - x2)
    (e2 : y3 = lam * (x1 - x3) - y1) :
    x3 = (weierstrass c).addX x1 x2 ((weierstrass c).slope x1 x2 y1 y2) ∧
    y3 = (weierstrass c).addY x1 x2 y1 ((weierstrass c).slope x1 x2 y1 y2) := by
  rw [hs]
  have hX : x3 = (weierstrass c).addX x1 x2 lam := by
    rw [e1]; simp [WeierstrassCurve.Affine.addX, weierstrass]
  refine ⟨hX, ?_⟩
  rw [WeierstrassCurve.Affine.addY, weierstrass_negY, WeierstrassCurve.Affine.negAddY, ← hX, e2]
  ring

theorem tangent_slope {x y lam : ZMod c.p.toNat} (h2 : 2 * y ≠ 0)
    (h : lam * (2 * y) = 3 * x ^ 2 + elt c c.a) : (weierstrass c).slope x x y y = lam := by
  have hy : y ≠ (weierstrass c).negY x y := by
    rw [weierstrass_negY]
    intro he
    exact h2 (by linear_combination he)
  rw [WeierstrassCurve.Affine.slope_of_Y_ne rfl hy, weierstrass_negY, sub_neg_eq_add, ← two_mul,
    div_eq_iff h2, h]
  simp [weierstrass]

theorem chord_slope {x1 y1 x2 y2 lam : ZMod c.p.toNat} (hx : x1 ≠ x2)
    (h : lam * (x2 - x1) = y2 - y1) : (weierstrass c).slope x1 x2 y1 y2 = lam := by
  rw [WeierstrassCurve.Affine.slope_of_X_ne hx, div_eq_iff (sub_ne_zero.2 hx)]
  linear_combination h

/-- ptDbl is the doubling of points: it answers the double, or ARITHMETIC for a point of order 2. -/
theorem Stands_ptDbl {P : Point} {A : (weierstrass c).Point} (hP : Stands c P A) :
    (∃ R, ptDbl c P = .ok R ∧ Stands c R (A + A)) ∨
    (ptDbl c P = .error .arithmetic ∧ A ≠ 0 ∧ A + A = 0) := by
  rcases P with _ | ⟨x, y⟩
  · left
    obtain rfl : A = 0 := hP
    exact ⟨.inf, rfl, by simp [Stands]⟩
  · obtain ⟨hx, hy, h, rfl⟩ := hP
    rcases ptDbl_aff hp.out x y with ⟨h0, he⟩ | ⟨h0, x3, y3, he, hx3, hy3, lam, hl, e1, e2⟩
    · right
      refine ⟨he, WeierstrassCurve.Affine.Point.some_ne_zero h, ?_⟩
      refine WeierstrassCurve.Affine.Point.add_of_Y_eq rfl ?_
      rw [weierstrass_negY]
      linear_combination h0
    · left
      have hne : ¬ (elt c x = elt c x ∧ elt c y = (weierstrass c).negY (elt c x) (elt c y)) := by
        rw [weierstrass_negY]
        exact fun hh => h0 (by linear_combination hh.2)
      obtain ⟨r1, r2⟩ := sum_coordinates (tangent_slope h0 hl) e1 e2
      have hsum := WeierstrassCurve.Affine.Point.add_some hne (h₁ := h) (h₂ := h)
      refine ⟨_, he, hx3, hy3, ?_, ?_⟩
      · rw [r1, r2]; exact WeierstrassCurve.Affine.nonsingular_add h h hne
      · rw [hsum, WeierstrassCurve.Affine.Point.some.injEq]
        exact ⟨r1.symm, r2.symm⟩

/-- ptAdd is the addition of points, and never raises on points of the curve (R180). -/
theorem Stands_ptAdd {P Q : Point} {A B : (weierstrass c).Point} (hP : Stands c P A)
    (hQ : Stands c Q B) : ∃ R, ptAdd c P Q = .ok R ∧ Stands c R (A + B) := by
  rcases P with _ | ⟨x1, y1⟩
  · obtain rfl : A = 0 := hP
    exact ⟨Q, by cases Q <;> rfl, by simpa using hQ⟩
  rcases Q with _ | ⟨x2, y2⟩
  · obtain rfl : B = 0 := hQ
    exact ⟨_, rfl, by simpa using hP⟩
  have hP' := hP
  obtain ⟨hx1, hy1, h1, rfl⟩ := hP
  obtain ⟨hx2, hy2, h2, rfl⟩ := hQ
  have q1 := (weierstrass_equation c _ _).1 h1.1
  have q2 := (weierstrass_equation c _ _).1 h2.1
  rcases ptAdd_aff hp.out hx1 hy1 hx2 hy2 with ⟨hx, hy, he⟩ | ⟨hx, hy, rfl, rfl, he⟩ |
    ⟨hx, hy, hy', _⟩ | ⟨hx, x3, y3, he, hx3, hy3, lam, hl, e1, e2⟩
  · refine ⟨_, he, ?_⟩
    exact WeierstrassCurve.Affine.Point.add_of_Y_eq hx (by rw [weierstrass_negY, hy])
  · rw [he]
    rcases Stands_ptDbl hP' with ⟨R, hR, hs⟩ | ⟨_, _, h0⟩
    · exact ⟨R, hR, hs⟩
    · exfalso
      have hne : ¬ (elt c x1 = elt c x1 ∧ elt c y1 = (weierstrass c).negY (elt c x1) (elt c y1)) := by
        rw [weierstrass_negY]
        exact fun hh => hy hh.2
      rw [WeierstrassCurve.Affine.Point.add_some hne] at h0
      exact WeierstrassCurve.Affine.Point.some_ne_zero _ h0
  · exfalso
    rw [hx] at q1
    have : (elt c y1 - elt c y2) * (elt c y1 + elt c y2) = 0 := by linear_combination q1 - q2
    rcases mul_eq_zero.1 this with h | h
    · exact hy' (sub_eq_zero.1 h)
    · exact hy (by linear_combination h)
  · have hne : ¬ (elt c x1 = elt c x2 ∧ elt c y1 = (weierstrass c).negY (elt c x2) (elt c y2)) :=
      fun hh => hx hh.1
    obtain ⟨r1, r2⟩ := sum_coordinates (chord_slope hx hl) e1 e2
    refine ⟨_, he, hx3, hy3, ?_, ?_⟩
    · rw [r1, r2]; exact WeierstrassCurve.Affine.nonsingular_add h1 h2 hne
    · rw [WeierstrassCurve.Affine.Point.add_some hne, WeierstrassCurve.Affine.Point.some.injEq]
      exact ⟨r1.symm, r2.symm⟩

/-- The bits of k below i, one bit more. -/
theorem mod_two_pow_succ (k : Word) (i : Nat) :
    k.toNat % 2 ^ (i + 1) = 2 ^ i * (k.getLsbD i).toNat + k.toNat % 2 ^ i := by
  rw [Nat.mod_pow_succ, BitVec.getLsbD, Nat.testBit_eq_decide_div_mod_eq, Nat.add_comm]
  congr 2
  rcases Nat.mod_two_eq_zero_or_one (k.toNat / 2 ^ i) with h | h <;> simp [h]

/-- Where the loop of smul raises nothing it answers the multiple of the point (R202). -/
theorem Stands_smulLoop (k : Word) {P : Point} {A : (weierstrass c).Point} (hP : Stands c P A) :
    ∀ (i : Nat) (Q : Point) (B : (weierstrass c).Point), Stands c Q B → ∀ R,
      smulLoop c k P i Q = .ok R → Stands c R (2 ^ i • B + (k.toNat % 2 ^ i) • A) := by
  intro i
  induction i with
  | zero =>
    intro Q B hQ R h
    obtain rfl : Q = R := by injection h
    simpa [Nat.mod_one] using hQ
  | succ i ih =>
    intro Q B hQ R h
    rw [smulLoop] at h
    rcases Stands_ptDbl hQ with ⟨Q2, h2, hs2⟩ | ⟨h2, _⟩
    · rw [h2] at h
      simp only [] at h
      have hk := mod_two_pow_succ k i
      by_cases hb : k.getLsbD i = true
      · rw [if_pos hb] at h
        obtain ⟨Q3, h3, hs3⟩ := Stands_ptAdd hs2 hP
        rw [h3] at h
        have := ih Q3 _ hs3 R h
        rw [hk, hb, Bool.toNat_true, mul_one, add_nsmul, pow_succ, mul_nsmul', two_nsmul, ← add_assoc,
          ← nsmul_add]
        exact this
      · rw [if_neg hb] at h
        have := ih Q2 _ hs2 R h
        rw [hk, Bool.eq_false_iff.2 hb, Bool.toNat_false, mul_zero, zero_add, pow_succ, mul_nsmul',
          two_nsmul]
        exact this
    · rw [h2] at h
      cases h

/-- Where smul raises nothing it answers the k-fold sum (R202). -/
theorem Stands_smul {k : Word} {P R : Point} {A : (weierstrass c).Point} (hP : Stands c P A)
    (h : smul c k P = .ok R) : Stands c R (k.toNat • A) := by
  have := Stands_smulLoop k hP 256 .inf 0 rfl R h
  rwa [nsmul_zero, zero_add, Nat.mod_eq_of_lt k.isLt] at this

/-- On a point whose multiples by some odd number vanish, the loop of smul raises nothing (R203). -/
theorem smulLoop_total (k : Word) {P : Point} {A : (weierstrass c).Point} (hP : Stands c P A)
    {n : Nat} (hn : n % 2 = 1) (hA : n • A = 0) :
    ∀ (i : Nat) (Q : Point) (B : (weierstrass c).Point), Stands c Q B → n • B = 0 →
      ∃ R, smulLoop c k P i Q = .ok R := by
  intro i
  induction i with
  | zero => exact fun Q _ _ _ => ⟨Q, rfl⟩
  | succ i ih =>
    intro Q B hQ hB
    rw [smulLoop]
    rcases Stands_ptDbl hQ with ⟨Q2, h2, hs2⟩ | ⟨_, hne, h0⟩
    · rw [h2]
      simp only []
      by_cases hb : k.getLsbD i = true
      · rw [if_pos hb]
        obtain ⟨Q3, h3, hs3⟩ := Stands_ptAdd hs2 hP
        rw [h3]
        exact ih Q3 _ hs3 (by simp [nsmul_add, hA, hB])
      · rw [if_neg hb]
        exact ih Q2 _ hs2 (by simp [nsmul_add, hB])
    · exfalso
      apply hne
      obtain ⟨m, rfl⟩ : ∃ m, n = 2 * m + 1 := ⟨n / 2, by omega⟩
      have : (2 * m + 1) • B = m • (B + B) + B := by
        rw [add_nsmul, one_nsmul, mul_comm, mul_nsmul', two_nsmul]
      rw [hB, h0, nsmul_zero, zero_add] at this
      exact this.symm

/-- R203: on such a point smul raises nothing. -/
theorem smul_total (k : Word) {P : Point} {A : (weierstrass c).Point} (hP : Stands c P A)
    {n : Nat} (hn : n % 2 = 1) (hA : n • A = 0) : ∃ R, smul c k P = .ok R :=
  smulLoop_total k hP hn hA 256 .inf 0 rfl (by simp)

end

/-- A nonsingular CURVE: its Weierstrass curve has no singular point, so every valid point value stands
for a point. -/
theorem exists_Stands {c : Curve} (hp : Nat.Prime c.p.toNat) (h2 : c.p.toNat % 2 = 1)
    (hns : curveNonsingular c) {P : Point} (hP : pointValid c P = true) :
    ∃ A : (weierstrass c).Point, Stands c P A := by
  rcases P with _ | ⟨x, y⟩
  · exact ⟨0, rfl⟩
  · obtain ⟨hx, hy, he⟩ := (pointValid_aff hp.pos x y).1 hP
    have := Fact.mk hp
    have htwo := two_ne_zero_of_odd h2
    have hD : (weierstrass c).Δ ≠ 0 := by
      have h4 : 4 * elt c c.a ^ 3 + 27 * elt c c.b ^ 2 ≠ 0 := by
        intro h0
        apply hns
        have : ((4 * c.a.toNat ^ 3 + 27 * c.b.toNat ^ 2 : Nat) : ZMod c.p.toNat) = 0 := by
          push_cast; exact h0
        exact Nat.dvd_iff_mod_eq_zero.1 ((ZMod.natCast_eq_zero_iff _ _).1 this)
      have e : (weierstrass c).Δ = - (2 ^ 4 * (4 * elt c c.a ^ 3 + 27 * elt c c.b ^ 2)) := by
        simp only [WeierstrassCurve.Δ, WeierstrassCurve.b₂, WeierstrassCurve.b₄,
          WeierstrassCurve.b₆, WeierstrassCurve.b₈, weierstrass]
        ring
      rw [e]
      exact neg_ne_zero.2 (mul_ne_zero (pow_ne_zero _ htwo) h4)
    exact ⟨.some _ _ ((WeierstrassCurve.Affine.equation_iff_nonsingular_of_Δ_ne_zero hD).1 he),
      hx, hy, _, rfl⟩

/-! The group law over any well-formed CURVE, also with a composite p: what the tests and the slopes of
R174 and R176 say of residues. -/

/-- The test of case 2 of R174: a reduced y1 is the residue of - y2. -/
theorem eq_modulo_neg_iff {p : Nat} (hp : 0 < p) {a b : Nat} (ha : a < p) :
    a = modulo (0 - (b : Int)) p ↔ (a + b) % p = 0 := by
  have hc := modulo_cast (0 - (b : Int)) hp
  have hl := modulo_lt (0 - (b : Int)) hp
  constructor
  · rintro rfl
    zify
    rw [hc]
    simp
  · intro h
    have h1 : (a : Int) ≡ modulo (0 - (b : Int)) p [ZMOD p] := by
      rw [hc]
      have h0 : ((a + b : Nat) : Int) ≡ 0 [ZMOD p] := by
        rw [Int.ModEq]; exact_mod_cast h
      push_cast at h0
      have h2 := h0.sub_right (b : Int)
      simp only [add_sub_cancel_right] at h2
      exact h2.trans (Int.mod_modEq _ _).symm
    exact (Int.natCast_modEq_iff.1 h1).eq_of_lt_of_lt ha hl

/-- A denominator coprime to p is not zero, and the slope with its inverse is a quotient modulo p. -/
theorem slope_spec {c : Curve} (hp : 3 ≤ c.p.toNat) {num den : Int}
    (hg : Int.gcd den c.p.toNat = 1) :
    modulo den c.p.toNat ≠ 0 ∧
      ((modulo (num * invmod (modulo den c.p.toNat) c.p.toNat) c.p.toNat : Nat) * den) % c.p.toNat
        = num % c.p.toNat := by
  have hc := modulo_cast den (m := c.p.toNat) (by omega)
  have hl := modulo_lt den (m := c.p.toNat) (by omega)
  generalize modulo den c.p.toNat = d at *
  have hg' : Nat.gcd (d % c.p.toNat) c.p.toNat = 1 := by
    rw [Nat.mod_eq_of_lt hl]
    have h1 : Int.gcd (d : Int) c.p.toNat = 1 := by
      rw [hc, Int.gcd_emod, hg]
    simpa using h1
  obtain ⟨_, _, i3⟩ := invmod_spec (by omega) c.p.isLt.le hg'
  constructor
  · rintro rfl
    simp at hg'
    omega
  · rw [modulo_cast _ (by omega)]
    have h1 : ((d * invmod d c.p.toNat : Nat) : Int) ≡ (1 : Nat) [ZMOD c.p.toNat] := by
      rw [Int.natCast_modEq_iff, Nat.ModEq, i3, Nat.mod_eq_of_lt (by omega)]
    have h2 : den ≡ d [ZMOD c.p.toNat] := by rw [hc]; exact (Int.mod_modEq _ _).symm
    push_cast at h1
    calc num * invmod d c.p.toNat % c.p.toNat * den
        ≡ num * invmod d c.p.toNat * d [ZMOD c.p.toNat] := (Int.mod_modEq _ _).mul h2
      _ = num * (d * invmod d c.p.toNat) := by ring
      _ ≡ num * 1 [ZMOD c.p.toNat] := h1.mul_left _
      _ = num := by ring

/-- The point of a slope, as SlopeResult reads it. -/
theorem chord_slopeResult {c : Curve} (hp : 3 ≤ c.p.toNat) {num den : Int} (lam : Nat)
    (x1 y1 x2 : Word) (h : ((lam : Int) * den) % c.p.toNat = num % c.p.toNat) :
    ∃ x3 y3, chord c lam x1 y1 x2 = .aff x3 y3 ∧ SlopeResult c num den x1 y1 x2 x3 y3 := by
  refine ⟨_, _, rfl, lam, h, ?_, ?_⟩
  · rw [toWord_modulo_toNat _ (by omega), modulo_cast _ (by omega)]
  · rw [toWord_modulo_toNat _ (by omega), toWord_modulo_toNat _ (by omega),
      modulo_cast _ (by omega)]

/-- The one error of ptDbl (R176). -/
theorem ptDbl_error {c : Curve} {P : Point} {e : CmdError} (h : ptDbl c P = .error e) :
    e = .arithmetic := by
  rcases P with _ | ⟨x, y⟩
  · cases h
  · simp only [ptDbl] at h
    split at h <;> cases h
    rfl

/-- The one error of ptAdd (R174). -/
theorem ptAdd_error {c : Curve} {P Q : Point} {e : CmdError} (h : ptAdd c P Q = .error e) :
    e = .arithmetic := by
  rcases P with _ | ⟨x, y⟩
  · cases h
  rcases Q with _ | ⟨x', y'⟩
  · cases h
  · simp only [ptAdd] at h
    split at h
    · cases h
    split at h
    · exact ptDbl_error h
    split at h <;> cases h
    rfl

/-- The one error of the loop of smul (R200). -/
theorem smulLoop_error {c : Curve} {k : Word} {P : Point} {e : CmdError} :
    ∀ (i : Nat) (Q : Point), smulLoop c k P i Q = .error e → e = .arithmetic := by
  intro i
  induction i with
  | zero => intro Q h; cases h
  | succ i ih =>
    intro Q h
    rw [smulLoop] at h
    rcases h2 : ptDbl c Q with e' | Q2 <;> rw [h2] at h
    · cases h; exact ptDbl_error h2
    · simp only [] at h
      split at h
      · rcases h3 : ptAdd c Q2 P with e' | Q3 <;> rw [h3] at h
        · cases h; exact ptAdd_error h3
        · exact ih _ h
      · exact ih _ h

end Sys2Proof.Laws
end

