-- ==== Sys2Proof/Laws/State.lean ====
section
/-! SUPPORT. One lemma per field of State per update of it. -/

namespace Sys2Proof.Laws

open Sys2Proof.Machine

@[simp] theorem writeD_dregs (s : State) (r : DReg) (v : Word) :
    (s.writeD r v).dregs = s.dregs.set r v := rfl
@[simp] theorem writeD_pregs (s : State) (r : DReg) (v : Word) :
    (s.writeD r v).pregs = s.pregs := rfl
@[simp] theorem writeD_flag (s : State) (r : DReg) (v : Word) :
    (s.writeD r v).flag = s.flag := rfl
@[simp] theorem writeD_busy (s : State) (r : DReg) (v : Word) :
    (s.writeD r v).busy = s.busy := rfl
@[simp] theorem writeD_done (s : State) (r : DReg) (v : Word) :
    (s.writeD r v).done = s.done := rfl
@[simp] theorem writeD_werr (s : State) (r : DReg) (v : Word) :
    (s.writeD r v).werr = s.werr := rfl
@[simp] theorem writeD_errcode (s : State) (r : DReg) (v : Word) :
    (s.writeD r v).errcode = s.errcode := rfl
@[simp] theorem writeD_ie (s : State) (r : DReg) (v : Word) :
    (s.writeD r v).ie = s.ie := rfl
@[simp] theorem writeD_cmdlast (s : State) (r : DReg) (v : Word) :
    (s.writeD r v).cmdlast = s.cmdlast := rfl
@[simp] theorem writeD_cur (s : State) (r : DReg) (v : Word) :
    (s.writeD r v).cur = s.cur := rfl
@[simp] theorem writeD_cfg (s : State) (r : DReg) (v : Word) :
    (s.writeD r v).cfg = s.cfg := rfl
@[simp] theorem writeD_events (s : State) (r : DReg) (v : Word) :
    (s.writeD r v).events = s.events := rfl
@[simp] theorem writeD_responses (s : State) (r : DReg) (v : Word) :
    (s.writeD r v).responses = s.responses := rfl
@[simp] theorem writeD_entropy (s : State) (r : DReg) (v : Word) :
    (s.writeD r v).entropy = s.entropy := rfl
@[simp] theorem writeD_draws (s : State) (r : DReg) (v : Word) :
    (s.writeD r v).draws = s.draws := rfl

@[simp] theorem writeP_dregs (s : State) (r : PReg) (v : Point) :
    (s.writeP r v).dregs = s.dregs := rfl
@[simp] theorem writeP_pregs (s : State) (r : PReg) (v : Point) :
    (s.writeP r v).pregs = s.pregs.set r v := rfl
@[simp] theorem writeP_flag (s : State) (r : PReg) (v : Point) :
    (s.writeP r v).flag = s.flag := rfl
@[simp] theorem writeP_busy (s : State) (r : PReg) (v : Point) :
    (s.writeP r v).busy = s.busy := rfl
@[simp] theorem writeP_done (s : State) (r : PReg) (v : Point) :
    (s.writeP r v).done = s.done := rfl
@[simp] theorem writeP_werr (s : State) (r : PReg) (v : Point) :
    (s.writeP r v).werr = s.werr := rfl
@[simp] theorem writeP_errcode (s : State) (r : PReg) (v : Point) :
    (s.writeP r v).errcode = s.errcode := rfl
@[simp] theorem writeP_ie (s : State) (r : PReg) (v : Point) :
    (s.writeP r v).ie = s.ie := rfl
@[simp] theorem writeP_cmdlast (s : State) (r : PReg) (v : Point) :
    (s.writeP r v).cmdlast = s.cmdlast := rfl
@[simp] theorem writeP_cur (s : State) (r : PReg) (v : Point) :
    (s.writeP r v).cur = s.cur := rfl
@[simp] theorem writeP_cfg (s : State) (r : PReg) (v : Point) :
    (s.writeP r v).cfg = s.cfg := rfl
@[simp] theorem writeP_events (s : State) (r : PReg) (v : Point) :
    (s.writeP r v).events = s.events := rfl
@[simp] theorem writeP_responses (s : State) (r : PReg) (v : Point) :
    (s.writeP r v).responses = s.responses := rfl
@[simp] theorem writeP_entropy (s : State) (r : PReg) (v : Point) :
    (s.writeP r v).entropy = s.entropy := rfl
@[simp] theorem writeP_draws (s : State) (r : PReg) (v : Point) :
    (s.writeP r v).draws = s.draws := rfl

@[simp] theorem endCommand_dregs (s : State) (code : BitVec 4) :
    (s.endCommand code).dregs = s.dregs := rfl
@[simp] theorem endCommand_pregs (s : State) (code : BitVec 4) :
    (s.endCommand code).pregs = s.pregs := rfl
@[simp] theorem endCommand_flag (s : State) (code : BitVec 4) :
    (s.endCommand code).flag = s.flag := rfl
@[simp] theorem endCommand_busy (s : State) (code : BitVec 4) :
    (s.endCommand code).busy = false := rfl
@[simp] theorem endCommand_done (s : State) (code : BitVec 4) :
    (s.endCommand code).done = true := rfl
@[simp] theorem endCommand_werr (s : State) (code : BitVec 4) :
    (s.endCommand code).werr = s.werr := rfl
@[simp] theorem endCommand_errcode (s : State) (code : BitVec 4) :
    (s.endCommand code).errcode = code := rfl
@[simp] theorem endCommand_ie (s : State) (code : BitVec 4) :
    (s.endCommand code).ie = s.ie := rfl
@[simp] theorem endCommand_cmdlast (s : State) (code : BitVec 4) :
    (s.endCommand code).cmdlast = s.cmdlast := rfl
@[simp] theorem endCommand_cur (s : State) (code : BitVec 4) :
    (s.endCommand code).cur = s.cur := rfl
@[simp] theorem endCommand_cfg (s : State) (code : BitVec 4) :
    (s.endCommand code).cfg = s.cfg := rfl
@[simp] theorem endCommand_events (s : State) (code : BitVec 4) :
    (s.endCommand code).events = s.events := rfl
@[simp] theorem endCommand_responses (s : State) (code : BitVec 4) :
    (s.endCommand code).responses = s.responses := rfl
@[simp] theorem endCommand_entropy (s : State) (code : BitVec 4) :
    (s.endCommand code).entropy = s.entropy := rfl
@[simp] theorem endCommand_draws (s : State) (code : BitVec 4) :
    (s.endCommand code).draws = s.draws := rfl

@[simp] theorem afterDraw_dregs (s : State) :
    (s.afterDraw).dregs = s.dregs := rfl
@[simp] theorem afterDraw_pregs (s : State) :
    (s.afterDraw).pregs = s.pregs := rfl
@[simp] theorem afterDraw_flag (s : State) :
    (s.afterDraw).flag = s.flag := rfl
@[simp] theorem afterDraw_busy (s : State) :
    (s.afterDraw).busy = s.busy := rfl
@[simp] theorem afterDraw_done (s : State) :
    (s.afterDraw).done = s.done := rfl
@[simp] theorem afterDraw_werr (s : State) :
    (s.afterDraw).werr = s.werr := rfl
@[simp] theorem afterDraw_errcode (s : State) :
    (s.afterDraw).errcode = s.errcode := rfl
@[simp] theorem afterDraw_ie (s : State) :
    (s.afterDraw).ie = s.ie := rfl
@[simp] theorem afterDraw_cmdlast (s : State) :
    (s.afterDraw).cmdlast = s.cmdlast := rfl
@[simp] theorem afterDraw_cur (s : State) :
    (s.afterDraw).cur = s.cur := rfl
@[simp] theorem afterDraw_cfg (s : State) :
    (s.afterDraw).cfg = s.cfg := rfl
@[simp] theorem afterDraw_events (s : State) :
    (s.afterDraw).events = s.events := rfl
@[simp] theorem afterDraw_responses (s : State) :
    (s.afterDraw).responses = s.responses := rfl
@[simp] theorem afterDraw_entropy (s : State) :
    (s.afterDraw).entropy = s.entropy.tail := rfl
@[simp] theorem afterDraw_draws (s : State) :
    (s.afterDraw).draws = s.draws + 1 := rfl

@[simp] theorem issue_dregs (s : State) (w : BusWord) :
    (s.issue w).dregs = s.dregs := rfl
@[simp] theorem issue_pregs (s : State) (w : BusWord) :
    (s.issue w).pregs = s.pregs := rfl
@[simp] theorem issue_flag (s : State) (w : BusWord) :
    (s.issue w).flag = s.flag := rfl
@[simp] theorem issue_busy (s : State) (w : BusWord) :
    (s.issue w).busy = true := rfl
@[simp] theorem issue_done (s : State) (w : BusWord) :
    (s.issue w).done = false := rfl
@[simp] theorem issue_werr (s : State) (w : BusWord) :
    (s.issue w).werr = s.werr := rfl
@[simp] theorem issue_errcode (s : State) (w : BusWord) :
    (s.issue w).errcode = 0#4 := rfl
@[simp] theorem issue_ie (s : State) (w : BusWord) :
    (s.issue w).ie = s.ie := rfl
@[simp] theorem issue_cmdlast (s : State) (w : BusWord) :
    (s.issue w).cmdlast = w := rfl
@[simp] theorem issue_cur (s : State) (w : BusWord) :
    (s.issue w).cur = w := rfl
@[simp] theorem issue_cfg (s : State) (w : BusWord) :
    (s.issue w).cfg = s.cfg := rfl
@[simp] theorem issue_events (s : State) (w : BusWord) :
    (s.issue w).events = s.events := rfl
@[simp] theorem issue_responses (s : State) (w : BusWord) :
    (s.issue w).responses = s.responses := rfl
@[simp] theorem issue_entropy (s : State) (w : BusWord) :
    (s.issue w).entropy = s.entropy := rfl
@[simp] theorem issue_draws (s : State) (w : BusWord) :
    (s.issue w).draws = s.draws := rfl

@[simp] theorem loadCommand_dregs (s : State) (w : BusWord) :
    (s.loadCommand w).dregs = s.dregs := rfl
@[simp] theorem loadCommand_pregs (s : State) (w : BusWord) :
    (s.loadCommand w).pregs = s.pregs := rfl
@[simp] theorem loadCommand_flag (s : State) (w : BusWord) :
    (s.loadCommand w).flag = s.flag := rfl
@[simp] theorem loadCommand_busy (s : State) (w : BusWord) :
    (s.loadCommand w).busy = true := rfl
@[simp] theorem loadCommand_done (s : State) (w : BusWord) :
    (s.loadCommand w).done = false := rfl
@[simp] theorem loadCommand_werr (s : State) (w : BusWord) :
    (s.loadCommand w).werr = s.werr := rfl
@[simp] theorem loadCommand_errcode (s : State) (w : BusWord) :
    (s.loadCommand w).errcode = 0#4 := rfl
@[simp] theorem loadCommand_ie (s : State) (w : BusWord) :
    (s.loadCommand w).ie = s.ie := rfl
@[simp] theorem loadCommand_cmdlast (s : State) (w : BusWord) :
    (s.loadCommand w).cmdlast = w := rfl
@[simp] theorem loadCommand_cur (s : State) (w : BusWord) :
    (s.loadCommand w).cur = w := rfl
@[simp] theorem loadCommand_cfg (s : State) (w : BusWord) :
    (s.loadCommand w).cfg = s.cfg := rfl
@[simp] theorem loadCommand_events (s : State) (w : BusWord) :
    (s.loadCommand w).events = .engine :: s.events := rfl
@[simp] theorem loadCommand_responses (s : State) (w : BusWord) :
    (s.loadCommand w).responses = s.responses := rfl
@[simp] theorem loadCommand_entropy (s : State) (w : BusWord) :
    (s.loadCommand w).entropy = s.entropy := rfl
@[simp] theorem loadCommand_draws (s : State) (w : BusWord) :
    (s.loadCommand w).draws = s.draws := rfl

@[simp] theorem resetBlock_dregs (s : State) :
    (s.resetBlock).dregs = State.reset.dregs := rfl
@[simp] theorem resetBlock_pregs (s : State) :
    (s.resetBlock).pregs = State.reset.pregs := rfl
@[simp] theorem resetBlock_flag (s : State) :
    (s.resetBlock).flag = State.reset.flag := rfl
@[simp] theorem resetBlock_busy (s : State) :
    (s.resetBlock).busy = State.reset.busy := rfl
@[simp] theorem resetBlock_done (s : State) :
    (s.resetBlock).done = State.reset.done := rfl
@[simp] theorem resetBlock_werr (s : State) :
    (s.resetBlock).werr = State.reset.werr := rfl
@[simp] theorem resetBlock_errcode (s : State) :
    (s.resetBlock).errcode = State.reset.errcode := rfl
@[simp] theorem resetBlock_ie (s : State) :
    (s.resetBlock).ie = State.reset.ie := rfl
@[simp] theorem resetBlock_cmdlast (s : State) :
    (s.resetBlock).cmdlast = State.reset.cmdlast := rfl
@[simp] theorem resetBlock_cur (s : State) :
    (s.resetBlock).cur = State.reset.cur := rfl
@[simp] theorem resetBlock_cfg (s : State) :
    (s.resetBlock).cfg = s.cfg := rfl
@[simp] theorem resetBlock_events (s : State) :
    (s.resetBlock).events = s.events := rfl
@[simp] theorem resetBlock_responses (s : State) :
    (s.resetBlock).responses = s.responses := rfl
@[simp] theorem resetBlock_entropy (s : State) :
    (s.resetBlock).entropy = s.entropy := rfl
@[simp] theorem resetBlock_draws (s : State) :
    (s.resetBlock).draws = s.draws := rfl

@[simp] theorem writeStatus_dregs (s : State) (v : BusWord) :
    (s.writeStatus v).dregs = s.dregs := rfl
@[simp] theorem writeStatus_pregs (s : State) (v : BusWord) :
    (s.writeStatus v).pregs = s.pregs := rfl
@[simp] theorem writeStatus_flag (s : State) (v : BusWord) :
    (s.writeStatus v).flag = s.flag := rfl
@[simp] theorem writeStatus_busy (s : State) (v : BusWord) :
    (s.writeStatus v).busy = s.busy := rfl
@[simp] theorem writeStatus_done (s : State) (v : BusWord) :
    (s.writeStatus v).done = (s.done && !v.getLsbD 1) := rfl
@[simp] theorem writeStatus_werr (s : State) (v : BusWord) :
    (s.writeStatus v).werr = (s.werr && !v.getLsbD 3) := rfl
@[simp] theorem writeStatus_errcode (s : State) (v : BusWord) :
    (s.writeStatus v).errcode = s.errcode := rfl
@[simp] theorem writeStatus_ie (s : State) (v : BusWord) :
    (s.writeStatus v).ie = s.ie := rfl
@[simp] theorem writeStatus_cmdlast (s : State) (v : BusWord) :
    (s.writeStatus v).cmdlast = s.cmdlast := rfl
@[simp] theorem writeStatus_cur (s : State) (v : BusWord) :
    (s.writeStatus v).cur = s.cur := rfl
@[simp] theorem writeStatus_cfg (s : State) (v : BusWord) :
    (s.writeStatus v).cfg = s.cfg := rfl
@[simp] theorem writeStatus_events (s : State) (v : BusWord) :
    (s.writeStatus v).events = s.events := rfl
@[simp] theorem writeStatus_responses (s : State) (v : BusWord) :
    (s.writeStatus v).responses = s.responses := rfl
@[simp] theorem writeStatus_entropy (s : State) (v : BusWord) :
    (s.writeStatus v).entropy = s.entropy := rfl
@[simp] theorem writeStatus_draws (s : State) (v : BusWord) :
    (s.writeStatus v).draws = s.draws := rfl

@[simp] theorem dropWrite_dregs (s : State) :
    (s.dropWrite).dregs = s.dregs := rfl
@[simp] theorem dropWrite_pregs (s : State) :
    (s.dropWrite).pregs = s.pregs := rfl
@[simp] theorem dropWrite_flag (s : State) :
    (s.dropWrite).flag = s.flag := rfl
@[simp] theorem dropWrite_busy (s : State) :
    (s.dropWrite).busy = s.busy := rfl
@[simp] theorem dropWrite_done (s : State) :
    (s.dropWrite).done = s.done := rfl
@[simp] theorem dropWrite_werr (s : State) :
    (s.dropWrite).werr = true := rfl
@[simp] theorem dropWrite_errcode (s : State) :
    (s.dropWrite).errcode = s.errcode := rfl
@[simp] theorem dropWrite_ie (s : State) :
    (s.dropWrite).ie = s.ie := rfl
@[simp] theorem dropWrite_cmdlast (s : State) :
    (s.dropWrite).cmdlast = s.cmdlast := rfl
@[simp] theorem dropWrite_cur (s : State) :
    (s.dropWrite).cur = s.cur := rfl
@[simp] theorem dropWrite_cfg (s : State) :
    (s.dropWrite).cfg = s.cfg := rfl
@[simp] theorem dropWrite_events (s : State) :
    (s.dropWrite).events = s.events := rfl
@[simp] theorem dropWrite_responses (s : State) :
    (s.dropWrite).responses = s.responses := rfl
@[simp] theorem dropWrite_entropy (s : State) :
    (s.dropWrite).entropy = s.entropy := rfl
@[simp] theorem dropWrite_draws (s : State) :
    (s.dropWrite).draws = s.draws := rfl

@[simp] theorem respond_dregs (s : State) (x : Response) :
    (s.respond x).dregs = s.dregs := rfl
@[simp] theorem respond_pregs (s : State) (x : Response) :
    (s.respond x).pregs = s.pregs := rfl
@[simp] theorem respond_flag (s : State) (x : Response) :
    (s.respond x).flag = s.flag := rfl
@[simp] theorem respond_busy (s : State) (x : Response) :
    (s.respond x).busy = s.busy := rfl
@[simp] theorem respond_done (s : State) (x : Response) :
    (s.respond x).done = s.done := rfl
@[simp] theorem respond_werr (s : State) (x : Response) :
    (s.respond x).werr = s.werr := rfl
@[simp] theorem respond_errcode (s : State) (x : Response) :
    (s.respond x).errcode = s.errcode := rfl
@[simp] theorem respond_ie (s : State) (x : Response) :
    (s.respond x).ie = s.ie := rfl
@[simp] theorem respond_cmdlast (s : State) (x : Response) :
    (s.respond x).cmdlast = s.cmdlast := rfl
@[simp] theorem respond_cur (s : State) (x : Response) :
    (s.respond x).cur = s.cur := rfl
@[simp] theorem respond_cfg (s : State) (x : Response) :
    (s.respond x).cfg = s.cfg := rfl
@[simp] theorem respond_events (s : State) (x : Response) :
    (s.respond x).events = s.events := rfl
@[simp] theorem respond_responses (s : State) (x : Response) :
    (s.respond x).responses = s.responses ++ [x] := rfl
@[simp] theorem respond_entropy (s : State) (x : Response) :
    (s.respond x).entropy = s.entropy := rfl
@[simp] theorem respond_draws (s : State) (x : Response) :
    (s.respond x).draws = s.draws := rfl

end Sys2Proof.Laws
end

