-- ==== Sys2Proof/Laws/Ops.lean ====
section
/-! SUPPORT. What the shared operations do: register reads after writes, a completion by its result, and
the one form every command's outcome has. -/

namespace Sys2Proof.Laws

open Sys2Proof.Machine

theorem readD_writeD (s : State) (r x : DReg) (v : Word) :
    (s.writeD r v).readD x = if x = r then v else s.readD x := by
  simp only [State.readD, State.writeD, Vector.get_eq_getElem, Vector.getElem_set, Fin.ext_iff,
    eq_comm]

theorem readP_writeP (s : State) (r x : PReg) (v : Point) :
    (s.writeP r v).readP x = if x = r then v else s.readP x := by
  simp only [State.readP, State.writeP, Vector.get_eq_getElem, Vector.getElem_set, Fin.ext_iff,
    eq_comm]

@[simp] theorem readD_writeD_self (s : State) (r : DReg) (v : Word) :
    (s.writeD r v).readD r = v := by simp [readD_writeD]

@[simp] theorem readP_writeP_self (s : State) (r : PReg) (v : Point) :
    (s.writeP r v).readP r = v := by simp [readP_writeP]

@[simp] theorem readP_writeD (s : State) (r : DReg) (x : PReg) (v : Word) :
    (s.writeD r v).readP x = s.readP x := rfl

@[simp] theorem readD_writeP (s : State) (r : PReg) (x : DReg) (v : Point) :
    (s.writeP r v).readD x = s.readD x := rfl

@[simp] theorem readD_endCommand (s : State) (c : BitVec 4) (x : DReg) :
    (s.endCommand c).readD x = s.readD x := rfl

@[simp] theorem readP_endCommand (s : State) (c : BitVec 4) (x : PReg) :
    (s.endCommand c).readP x = s.readP x := rfl

@[simp] theorem readD_afterDraw (s : State) (x : DReg) : s.afterDraw.readD x = s.readD x := rfl

@[simp] theorem readP_afterDraw (s : State) (x : PReg) : s.afterDraw.readP x = s.readP x := rfl

@[simp] theorem readD_reset (x : DReg) : State.reset.readD x = 0#256 := by
  simp [State.readD, State.reset, Vector.get_eq_getElem]

@[simp] theorem readP_reset (x : PReg) : State.reset.readP x = .inf := by
  simp [State.readP, State.reset, Vector.get_eq_getElem]

theorem complete_error (s : State) (e : CmdError) :
    s.complete (.error e) = s.endCommand e.code := rfl

theorem complete_none (s : State) :
    s.complete (.ok commitNone) = s.endCommand 0#4 := rfl

theorem complete_commitD (s : State) (r : DReg) (v : Word) :
    s.complete (.ok (commitD r v)) = (s.writeD r v).endCommand 0#4 := rfl

theorem complete_commitP (s : State) (r : PReg) (v : Point) :
    s.complete (.ok (commitP r v)) = (s.writeP r v).endCommand 0#4 := rfl

theorem complete_commitFlag (s : State) (b : Bool) :
    s.complete (.ok (commitFlag b)) = State.endCommand { s with flag := b } 0#4 := rfl

/-- A completion with one data register committed changes that register and the status alone. -/
theorem onlyD_complete (s : State) (r : DReg) (v : Word) :
    OnlyD s (s.complete (.ok (commitD r v))) r v := by
  rw [complete_commitD]
  refine ⟨⟨rfl, rfl, rfl, rfl, rfl, rfl, rfl, rfl, rfl, rfl⟩, ⟨by simp, ?_⟩, fun _ => rfl, rfl,
    rfl, rfl⟩
  intro x hx
  simp [readD_writeD, hx]

/-- A completion with one point register committed changes that register and the status alone. -/
theorem onlyP_complete (s : State) (r : PReg) (v : Point) :
    OnlyP s (s.complete (.ok (commitP r v))) r v := by
  rw [complete_commitP]
  refine ⟨⟨rfl, rfl, rfl, rfl, rfl, rfl, rfl, rfl, rfl, rfl⟩, fun _ => rfl, ⟨by simp, ?_⟩, rfl,
    rfl, rfl⟩
  intro x hx
  simp [readP_writeP, hx]

/-- A completion with FLAG committed changes FLAG and the status alone. -/
theorem onlyFlag_complete (s : State) (b : Bool) :
    OnlyFlag s (s.complete (.ok (commitFlag b))) b :=
  ⟨⟨rfl, rfl, rfl, rfl, rfl, rfl, rfl, rfl, rfl, rfl⟩, fun _ => rfl, fun _ => rfl, rfl, rfl, rfl⟩

/-- A completion with an error changes the status alone. -/
theorem onlyError_complete (s : State) (e : CmdError) :
    OnlyError s (s.complete (.error e)) e ∧ NoDraw s (s.complete (.error e)) :=
  ⟨⟨⟨rfl, rfl, rfl, rfl, rfl, rfl, rfl, rfl, rfl, rfl⟩, fun _ => rfl, fun _ => rfl, rfl⟩, rfl, rfl⟩

/-- Any completion: the status fields it sets and the fields no completion touches. -/
theorem completed_complete (s : State) (r : Result) :
    Completed s (s.complete r) (match r with | .ok _ => 0#4 | .error e => e.code) := by
  rcases r with e | w
  · exact ⟨rfl, rfl, rfl, rfl, rfl, rfl, rfl, rfl, rfl, rfl⟩
  · have hd : ∀ (l : List (DReg × Word)) (t : State),
        ∃ d, l.foldl (fun t x => t.writeD x.1 x.2) t = { t with dregs := d } := by
      intro l
      induction l with
      | nil => exact fun t => ⟨t.dregs, rfl⟩
      | cons x xs ih => exact fun t => ih (t.writeD x.1 x.2)
    have hp : ∀ (l : List (PReg × Point)) (t : State),
        ∃ p, l.foldl (fun t x => t.writeP x.1 x.2) t = { t with pregs := p } := by
      intro l
      induction l with
      | nil => exact fun t => ⟨t.pregs, rfl⟩
      | cons x xs ih => exact fun t => ih (t.writeP x.1 x.2)
    obtain ⟨d, hd⟩ := hd w.dw s
    obtain ⟨p, hp⟩ := hp w.pw { s with dregs := d }
    have h : s.applyWrites w =
        { s with dregs := d, pregs := p, flag := w.flagval.getD s.flag } := by
      simp only [State.applyWrites, hd, hp]
    simp only [State.complete, h]
    exact ⟨rfl, rfl, rfl, rfl, rfl, rfl, rfl, rfl, rfl, rfl⟩

/-- Every command's outcome is a completion, of the state or of the state after one draw. -/
theorem exec_is_completion (i : Instr) (s : State) :
    ∃ s' r, (s' = s ∨ s' = s.afterDraw) ∧ exec i s = .next (s'.complete r) := by
  cases i
  case sign rs re rk rm =>
    by_cases h : rs = re
    · exact ⟨s, _, .inl rfl, by simp only [exec, execSign, finish, h, if_true]; rfl⟩
    · exact ⟨s.afterDraw, _, .inr rfl, by simp only [exec, execSign, finish, h, if_false]; rfl⟩
  case keygen rd pd => exact ⟨s.afterDraw, _, .inr rfl, rfl⟩
  all_goals exact ⟨s, _, .inl rfl, rfl⟩

end Sys2Proof.Laws
end

