-- ==== Sys2Proof/Laws/PerInstr.lean ====
section
/-! SUPPORT. A law per command: the fields of its word are those its row of R97 allows. -/

namespace Sys2Proof.Laws.Fields

/-- The word of a command: its OPC is the opcode's (R96), RSV is 0 (R94), M is 1 only where the opcode
takes a modulus (R93), and the fields its row of R97 leaves out are 0 (R95). -/
def Statement (i : Instr) : Prop :=
  opcField (encode i) = i.opcode.code ∧ fieldRsv (encode i) = 0 ∧
    (fieldM (encode i) = true → i.opcode.usesM = true) ∧
    unusedFieldSet i.opcode (fieldA (encode i)) (fieldB (encode i)) (fieldC (encode i))
      (fieldD (encode i)) = false

/-- A packed word of an opcode with legal fields has the law's form. -/
theorem of_packWord {i : Instr} {a b c d : Fin 16} {m : Bool}
    (h : encode i = packWord i.opcode.code a b c d m) (hm : m = true → i.opcode.usesM = true)
    (hu : unusedFieldSet i.opcode a b c d = false) : Statement i := by
  obtain ⟨h1, h2, h3, h4, h5, h6, h7⟩ := packWord_fields (code_lt i.opcode) a b c d m
  rw [← h] at h1 h2 h3 h4 h5 h6 h7
  exact ⟨h1, h7, by rw [h6]; exact hm, by rw [h2, h3, h4, h5]; exact hu⟩

theorem nop : Statement (.nop) :=
  of_packWord rfl (by simp) (by simp [unusedFieldSet, Opcode.usesA, Opcode.usesB, Opcode.usesC,
    Opcode.usesD, Instr.opcode])

theorem madd (m : Modulus) (a b c : Fin 16) : Statement (.madd m a b c) :=
  of_packWord rfl (fun _ => rfl) (by simp [unusedFieldSet, Opcode.usesA, Opcode.usesB, Opcode.usesC,
    Opcode.usesD, Instr.opcode])

theorem msub (m : Modulus) (a b c : Fin 16) : Statement (.msub m a b c) :=
  of_packWord rfl (fun _ => rfl) (by simp [unusedFieldSet, Opcode.usesA, Opcode.usesB, Opcode.usesC,
    Opcode.usesD, Instr.opcode])

theorem mneg (m : Modulus) (a b : Fin 16) : Statement (.mneg m a b) :=
  of_packWord rfl (fun _ => rfl) (by simp [unusedFieldSet, Opcode.usesA, Opcode.usesB, Opcode.usesC,
    Opcode.usesD, Instr.opcode])

theorem mred (m : Modulus) (a b : Fin 16) : Statement (.mred m a b) :=
  of_packWord rfl (fun _ => rfl) (by simp [unusedFieldSet, Opcode.usesA, Opcode.usesB, Opcode.usesC,
    Opcode.usesD, Instr.opcode])

theorem montmul (m : Modulus) (a b c : Fin 16) : Statement (.montmul m a b c) :=
  of_packWord rfl (fun _ => rfl) (by simp [unusedFieldSet, Opcode.usesA, Opcode.usesB, Opcode.usesC,
    Opcode.usesD, Instr.opcode])

theorem mmul (m : Modulus) (a b c : Fin 16) : Statement (.mmul m a b c) :=
  of_packWord rfl (fun _ => rfl) (by simp [unusedFieldSet, Opcode.usesA, Opcode.usesB, Opcode.usesC,
    Opcode.usesD, Instr.opcode])

theorem tomont (m : Modulus) (a b : Fin 16) : Statement (.tomont m a b) :=
  of_packWord rfl (fun _ => rfl) (by simp [unusedFieldSet, Opcode.usesA, Opcode.usesB, Opcode.usesC,
    Opcode.usesD, Instr.opcode])

theorem frommont (m : Modulus) (a b : Fin 16) : Statement (.frommont m a b) :=
  of_packWord rfl (fun _ => rfl) (by simp [unusedFieldSet, Opcode.usesA, Opcode.usesB, Opcode.usesC,
    Opcode.usesD, Instr.opcode])

theorem minv (m : Modulus) (a b : Fin 16) : Statement (.minv m a b) :=
  of_packWord rfl (fun _ => rfl) (by simp [unusedFieldSet, Opcode.usesA, Opcode.usesB, Opcode.usesC,
    Opcode.usesD, Instr.opcode])

theorem pval (b c : Fin 16) : Statement (.pval b c) :=
  of_packWord rfl (by simp) (by simp [unusedFieldSet, Opcode.usesA, Opcode.usesB, Opcode.usesC,
    Opcode.usesD, Instr.opcode])

theorem pload (a b c : Fin 16) : Statement (.pload a b c) :=
  of_packWord rfl (by simp) (by simp [unusedFieldSet, Opcode.usesA, Opcode.usesB, Opcode.usesC,
    Opcode.usesD, Instr.opcode])

theorem pinf (a : Fin 16) : Statement (.pinf a) :=
  of_packWord rfl (by simp) (by simp [unusedFieldSet, Opcode.usesA, Opcode.usesB, Opcode.usesC,
    Opcode.usesD, Instr.opcode])

theorem pgen (a : Fin 16) : Statement (.pgen a) :=
  of_packWord rfl (by simp) (by simp [unusedFieldSet, Opcode.usesA, Opcode.usesB, Opcode.usesC,
    Opcode.usesD, Instr.opcode])

theorem pmov (a b : Fin 16) : Statement (.pmov a b) :=
  of_packWord rfl (by simp) (by simp [unusedFieldSet, Opcode.usesA, Opcode.usesB, Opcode.usesC,
    Opcode.usesD, Instr.opcode])

theorem pgetx (a b : Fin 16) : Statement (.pgetx a b) :=
  of_packWord rfl (by simp) (by simp [unusedFieldSet, Opcode.usesA, Opcode.usesB, Opcode.usesC,
    Opcode.usesD, Instr.opcode])

theorem pgety (a b : Fin 16) : Statement (.pgety a b) :=
  of_packWord rfl (by simp) (by simp [unusedFieldSet, Opcode.usesA, Opcode.usesB, Opcode.usesC,
    Opcode.usesD, Instr.opcode])

theorem pisinf (b : Fin 16) : Statement (.pisinf b) :=
  of_packWord rfl (by simp) (by simp [unusedFieldSet, Opcode.usesA, Opcode.usesB, Opcode.usesC,
    Opcode.usesD, Instr.opcode])

theorem peq (b c : Fin 16) : Statement (.peq b c) :=
  of_packWord rfl (by simp) (by simp [unusedFieldSet, Opcode.usesA, Opcode.usesB, Opcode.usesC,
    Opcode.usesD, Instr.opcode])

theorem pneg (a b : Fin 16) : Statement (.pneg a b) :=
  of_packWord rfl (by simp) (by simp [unusedFieldSet, Opcode.usesA, Opcode.usesB, Opcode.usesC,
    Opcode.usesD, Instr.opcode])

theorem padd (a b c : Fin 16) : Statement (.padd a b c) :=
  of_packWord rfl (by simp) (by simp [unusedFieldSet, Opcode.usesA, Opcode.usesB, Opcode.usesC,
    Opcode.usesD, Instr.opcode])

theorem pdbl (a b : Fin 16) : Statement (.pdbl a b) :=
  of_packWord rfl (by simp) (by simp [unusedFieldSet, Opcode.usesA, Opcode.usesB, Opcode.usesC,
    Opcode.usesD, Instr.opcode])

theorem pmul (a b c : Fin 16) : Statement (.pmul a b c) :=
  of_packWord rfl (by simp) (by simp [unusedFieldSet, Opcode.usesA, Opcode.usesB, Opcode.usesC,
    Opcode.usesD, Instr.opcode])

theorem keygen (a b : Fin 16) : Statement (.keygen a b) :=
  of_packWord rfl (by simp) (by simp [unusedFieldSet, Opcode.usesA, Opcode.usesB, Opcode.usesC,
    Opcode.usesD, Instr.opcode])

theorem pubkey (a b : Fin 16) : Statement (.pubkey a b) :=
  of_packWord rfl (by simp) (by simp [unusedFieldSet, Opcode.usesA, Opcode.usesB, Opcode.usesC,
    Opcode.usesD, Instr.opcode])

theorem sign (a d b c : Fin 16) : Statement (.sign a d b c) :=
  of_packWord rfl (by simp) (by simp [unusedFieldSet, Opcode.usesA, Opcode.usesB, Opcode.usesC,
    Opcode.usesD, Instr.opcode])

theorem verify (b a c d : Fin 16) : Statement (.verify b a c d) :=
  of_packWord rfl (by simp) (by simp [unusedFieldSet, Opcode.usesA, Opcode.usesB, Opcode.usesC,
    Opcode.usesD, Instr.opcode])

end Sys2Proof.Laws.Fields
end

