-- ==== Sys2Proof/Laws/Step.lean ====
section
/-! SUPPORT. Everything a host access and a step can do. -/

namespace Sys2Proof.Laws

open Sys2Proof.Machine

/-- Everything one host access can do to the block (R33, R36, R37, R61, R62, R68, R72, R281). -/
theorem busAccess_cases (s : State) (a : Access) :
    (∃ x, s.busAccess a = s.respond x) ∨ s.busAccess a = s ∨
    (isSoftReset s.cfg a = true ∧ s.busAccess a = s.resetBlock) ∨
    (∃ b, s.busAccess a = { s with ie := b }) ∨ (∃ v, s.busAccess a = s.writeStatus v) ∨
    (s.busy = true ∧ s.busAccess a = s.dropWrite) ∨
    (s.busy = false ∧ ∃ w, s.busAccess a = s.issue w) ∨
    (s.busy = false ∧ ∃ i j v, s.busAccess a = s.writeD i (setLane (s.readD i) j v)) := by
  rcases a with ⟨width, addr⟩ | ⟨width, addr, v⟩
  · simp only [State.busAccess]
    split
    · tauto
    · split <;> exact .inl ⟨_, rfl⟩
  · rcases ho : windowOffset s.cfg.windowBase addr with _ | off
    · simp only [State.busAccess, ho]; tauto
    · by_cases hk : accessOk width off = true
      · simp only [State.busAccess, ho, hk, if_true]
        by_cases h4 : off.toNat = 4
        · have hoff : off = 0x004#12 := BitVec.eq_of_toNat_eq h4
          have hc : s.windowWrite off v = s.writeCtrl v := by subst hoff; rfl
          rw [hc, State.writeCtrl]
          by_cases hv : v.getLsbD 1 = true
          · rw [if_pos hv]
            refine .inr (.inr (.inl ⟨?_, rfl⟩))
            simp only [isSoftReset, ho, hk, hv, Bool.and_true, Bool.true_and, beq_iff_eq]
            exact hoff
          · rw [if_neg hv]
            exact .inr (.inr (.inr (.inl ⟨_, rfl⟩)))
        · have hr : regionOf off ≠ .ctrl := by
            intro h
            simp only [regionOf, pointRegion] at h
            generalize off.toNat = n at *
            repeat' split at h
            all_goals first | omega | simp only [reduceCtorEq] at h
          simp only [State.windowWrite]
          generalize regionOf off = g at *
          cases g <;> simp only [State.writeRegion]
          case id => exact .inr (.inl trivial)
          case pointX => exact .inr (.inl trivial)
          case pointY => exact .inr (.inl trivial)
          case pointInf => exact .inr (.inl trivial)
          case curveWord => exact .inr (.inl trivial)
          case reserved => exact .inr (.inl trivial)
          case ctrl => exact absurd rfl hr
          · exact .inr (.inr (.inr (.inr (.inl ⟨_, rfl⟩))))
          · rw [State.writeCmd]
            cases hb : s.busy
            · exact .inr (.inr (.inr (.inr (.inr (.inr (.inl ⟨rfl, _, rfl⟩))))))
            · exact .inr (.inr (.inr (.inr (.inr (.inl ⟨rfl, rfl⟩)))))
          · rw [State.writeLane]
            cases hb : s.busy
            · exact .inr (.inr (.inr (.inr (.inr (.inr (.inr ⟨rfl, _, _, _, rfl⟩))))))
            · exact .inr (.inr (.inr (.inr (.inr (.inl ⟨rfl, rfl⟩)))))
      · simp only [State.busAccess, ho, if_neg hk]
        exact .inl ⟨_, rfl⟩

/-- The engine's turn: nothing with no command in flight, else the decoded command or ILLEGAL. -/
theorem engineTurn_cases {s t : State} (h : s.engineTurn = .next t) :
    (s.busy = false ∧ t = s) ∨ (s.busy = true ∧ ∃ i, decode s.cur = .ok i ∧ exec i s = .next t) ∨
    (s.busy = true ∧ (∃ e, decode s.cur = .error e) ∧ t = s.endCommand 1#4) := by
  simp only [State.engineTurn] at h
  split at h
  · rename_i hb
    simp only [State.engineStep] at h
    split at h
    · rename_i e he
      cases h
      exact .inr (.inr ⟨hb, ⟨e, he⟩, rfl⟩)
    · rename_i i hi
      exact .inr (.inl ⟨hb, i, hi, h⟩)
  · cases h
    exact .inl ⟨by simp_all, rfl⟩

/-- A step of a well-formed configuration takes the next event. -/
theorem step_of_configWf {s : State} (h : configWf s.cfg = true) :
    step s = match s.events with
      | [] => s.engineTurn
      | .engine :: rest => State.engineTurn { s with events := rest }
      | .bus a :: rest => .next (State.busAccess { s with events := rest } a)
      | .hardReset :: rest => .next (State.resetBlock { s with events := rest }) := by
  simp only [configWf, Bool.and_eq_true] at h
  exact (if_neg (by simp [h.1])).trans (if_neg (by simp [h.2]))

/-- A step that answers a next state had a well-formed configuration. -/
theorem configWf_of_step {s t : State} (h : step s = .next t) : configWf s.cfg = true := by
  simp only [step, State.advance] at h
  split at h
  · cases h
  split at h
  · cases h
  · simp_all [configWf]

/-- Everything a step can do, with u the state whose next event has been taken. -/
theorem step_cases {s t : State} (h : step s = .next t) :
    ∃ u : State, u = { s with events := s.events.tail } ∧
      ((u.busy = false ∧ t = u) ∨
        (u.busy = true ∧ ∃ i, decode u.cur = .ok i ∧ exec i u = .next t) ∨
        (u.busy = true ∧ (∃ e, decode u.cur = .error e) ∧ t = u.endCommand 1#4) ∨
        (∃ a, t = u.busAccess a) ∨ t = u.resetBlock) := by
  rw [step_of_configWf (configWf_of_step h)] at h
  refine ⟨_, rfl, ?_⟩
  split at h
  · rename_i he
    have hu : { s with events := s.events.tail } = s := by rw [he]; cases s; simp_all
    rw [hu]
    rcases engineTurn_cases h with h | h | h
    · exact .inl h
    · exact .inr (.inl h)
    · exact .inr (.inr (.inl h))
  · rename_i rest he
    rw [he]
    rcases engineTurn_cases h with h | h | h
    · exact .inl h
    · exact .inr (.inl h)
    · exact .inr (.inr (.inl h))
  · rename_i a rest he
    rw [he]
    cases h
    exact .inr (.inr (.inr (.inl ⟨a, rfl⟩)))
  · rename_i rest he
    rw [he]
    cases h
    exact .inr (.inr (.inr (.inr rfl)))

/-- A host access leaves the events still to come. -/
theorem busAccess_events (s : State) (a : Access) : (s.busAccess a).events = s.events := by
  rcases busAccess_cases s a with ⟨x, e⟩ | e | ⟨_, e⟩ | ⟨b, e⟩ | ⟨v, e⟩ | ⟨_, e⟩ | ⟨_, w, e⟩ |
    ⟨_, i, j, v, e⟩ <;> rw [e] <;> rfl

/-- A command leaves the events still to come. -/
theorem exec_events {i : Instr} {s t : State} (h : exec i s = .next t) : t.events = s.events := by
  obtain ⟨s', r, hs, he⟩ := exec_is_completion i s
  rw [h] at he
  cases he
  rw [(completed_complete s' r).events]
  rcases hs with rfl | rfl <;> rfl

/-- A step takes one event away and adds none. -/
theorem step_events {s t : State} (h : step s = .next t) : t.events = s.events.tail := by
  obtain ⟨u, rfl, hu⟩ := step_cases h
  rcases hu with ⟨_, rfl⟩ | ⟨_, i, _, he⟩ | ⟨_, _, rfl⟩ | ⟨a, rfl⟩ | rfl
  · rfl
  · exact exec_events he
  · rfl
  · exact busAccess_events _ a
  · rfl

/-- A run is over when no host access is still to come and BUSY = 0 (R293): with no event left, BUSY
alone decides. -/
@[simp] theorem runOver_of_no_events {s : State} (h : s.events = []) : s.runOver = !s.busy := by
  simp [State.runOver, h]

/-- A run of one step more goes on from the state the first step answers. -/
theorem run_succ {s t : State} (h : step s = .next t) (k : Nat) :
    core.run (k + 1) s = core.run k t := by
  have hs : core.step s = .next t := h
  simp only [Host.Core.run, hs]

/-- The observation of a run that is open is that of the run from the next state (R293). -/
theorem runObservation_succ {s t : State} (ho : s.runOver = false) (h : step s = .next t) (k : Nat) :
    State.runObservation (k + 1) s = State.runObservation k t := by
  rw [State.runObservation, if_neg (by simp [ho]), h]

end Sys2Proof.Laws
end

