-- ==== Sys2Proof/Laws/Window.lean ====
section
/-! SUPPORT. The lanes of a 256-bit register (R64) and the address map read at each kind of offset
(R66, R69). -/

namespace Sys2Proof.Laws

open Sys2Proof.Machine

theorem getLsbD_lane (v : Word) (j : Fin 8) (i : Nat) :
    (lane v j).getLsbD i = (decide (i < 32) && v.getLsbD (224 - 32 * j.val + i)) := by
  simp [lane, BitVec.getLsbD_extractLsb']

theorem getLsbD_setLane (v : Word) (j : Fin 8) (w : BusWord) (i : Nat) (hi : i < 256) :
    (setLane v j w).getLsbD i =
      if 224 - 32 * j.val ≤ i ∧ i < 256 - 32 * j.val then w.getLsbD (i - (224 - 32 * j.val))
      else v.getLsbD i := by
  have hj := j.isLt
  simp only [setLane, BitVec.getLsbD_or, BitVec.getLsbD_and, BitVec.getLsbD_not,
    BitVec.getLsbD_shiftLeft, BitVec.getLsbD_setWidth, BitVec.getLsbD_allOnes, hi, decide_true,
    Bool.true_and]
  by_cases h1 : i < 224 - 32 * j.val
  · have : ¬ (224 - 32 * j.val ≤ i ∧ i < 256 - 32 * j.val) := by omega
    rw [if_neg this]
    simp [h1]
  · by_cases h2 : i - (224 - 32 * j.val) < 32
    · have h3 : 224 - 32 * j.val ≤ i ∧ i < 256 - 32 * j.val := by omega
      have h4 : i - (224 - 32 * j.val) < 256 := by omega
      rw [if_pos h3]
      simp [h1, h2, h4]
    · have h3 : ¬ (224 - 32 * j.val ≤ i ∧ i < 256 - 32 * j.val) := by omega
      have h4 : w.getLsbD (i - (224 - 32 * j.val)) = false :=
        BitVec.getLsbD_of_ge _ _ (by omega)
      rw [if_neg h3]
      simp [h1, h2, h4]

/-- A word written to a lane reads back (R64). -/
@[simp] theorem lane_setLane_self (v : Word) (j : Fin 8) (w : BusWord) :
    lane (setLane v j w) j = w := by
  have hj := j.isLt
  apply BitVec.eq_of_getLsbD_eq
  intro i hi
  have h : 224 - 32 * j.val ≤ 224 - 32 * j.val + i ∧ 224 - 32 * j.val + i < 256 - 32 * j.val := by
    omega
  rw [getLsbD_lane, getLsbD_setLane _ _ _ _ (by omega), if_pos h]
  simp [hi]

/-- A word written to a lane leaves the other lanes alone (R64). -/
theorem lane_setLane_ne (v : Word) {j k : Fin 8} (h : k ≠ j) (w : BusWord) :
    lane (setLane v j w) k = lane v k := by
  have hj := j.isLt
  have hk := k.isLt
  have hne : k.val ≠ j.val := fun e => h (Fin.ext e)
  apply BitVec.eq_of_getLsbD_eq
  intro i hi
  have : ¬ (224 - 32 * j.val ≤ 224 - 32 * k.val + i ∧ 224 - 32 * k.val + i < 256 - 32 * j.val) := by
    omega
  rw [getLsbD_lane, getLsbD_lane, getLsbD_setLane _ _ _ _ (by omega), if_neg this]

/-- A 256-bit value is determined by its eight words (R64). -/
theorem word_ext_lanes {v w : Word} (h : ∀ j : Fin 8, lane v j = lane w j) : v = w := by
  apply BitVec.eq_of_getLsbD_eq
  intro i hi
  have hj : 7 - i / 32 < 8 := by omega
  have := congrArg (fun x : BusWord => x.getLsbD (i % 32)) (h ⟨7 - i / 32, hj⟩)
  simp only [getLsbD_lane] at this
  have e : 224 - 32 * (7 - i / 32) + i % 32 = i := by omega
  have l : i % 32 < 32 := by omega
  simpa [e, l] using this

theorem laneAt_val (d : Nat) : (laneAt d).val = d % 32 / 4 := by
  simp only [laneAt, Fin.ofNat]
  omega

/-- The words of the data registers (R66, R68). -/
theorem regionOf_dword (i : DReg) (j : Fin 8) :
    regionOf (BitVec.ofNat 12 (0x100 + 0x20 * i.val + 4 * j.val)) = .dword i j := by
  have hi := i.isLt
  have hj := j.isLt
  have hn : (BitVec.ofNat 12 (0x100 + 0x20 * i.val + 4 * j.val)).toNat =
      0x100 + 0x20 * i.val + 4 * j.val := by
    rw [BitVec.toNat_ofNat]; omega
  simp only [regionOf, hn]
  repeat rw [if_neg (by omega)]
  rw [if_pos (by omega)]
  congr 1
  · apply Fin.ext; simp only [Fin.ofNat]; omega
  · apply Fin.ext; rw [laneAt_val]; omega

theorem regionOf_point (i : PReg) {d : Nat} (hd : d < 0x80) :
    regionOf (BitVec.ofNat 12 (0x400 + 0x80 * i.val + d)) = pointRegion i d := by
  have hi := i.isLt
  have hn : (BitVec.ofNat 12 (0x400 + 0x80 * i.val + d)).toNat = 0x400 + 0x80 * i.val + d := by
    rw [BitVec.toNat_ofNat]; omega
  have h1 : Fin.ofNat 16 ((0x400 + 0x80 * i.val + d - 0x400) / 0x80) = i := by
    apply Fin.ext; simp only [Fin.ofNat]; omega
  have h2 : (0x400 + 0x80 * i.val + d - 0x400) % 0x80 = d := by omega
  simp only [regionOf, hn, h1, h2]
  repeat rw [if_neg (by omega)]
  rw [if_pos (by omega)]

/-- The X words of the point registers (R69). -/
theorem regionOf_pointX (i : PReg) (j : Fin 8) :
    regionOf (BitVec.ofNat 12 (0x400 + 0x80 * i.val + 4 * j.val)) = .pointX i j := by
  have hj := j.isLt
  rw [regionOf_point i (by omega), pointRegion, if_pos (by omega)]
  congr 1
  apply Fin.ext; rw [laneAt_val]; omega

/-- The Y words of the point registers (R69). -/
theorem regionOf_pointY (i : PReg) (j : Fin 8) :
    regionOf (BitVec.ofNat 12 (0x420 + 0x80 * i.val + 4 * j.val)) = .pointY i j := by
  have hj := j.isLt
  rw [show 0x420 + 0x80 * i.val + 4 * j.val = 0x400 + 0x80 * i.val + (0x20 + 4 * j.val) by ring,
    regionOf_point i (by omega), pointRegion, if_neg (by omega), if_pos (by omega)]
  congr 1
  apply Fin.ext; rw [laneAt_val]; omega

/-- The INF words of the point registers (R69). -/
theorem regionOf_pointInf (i : PReg) :
    regionOf (BitVec.ofNat 12 (0x440 + 0x80 * i.val)) = .pointInf i := by
  rw [show 0x440 + 0x80 * i.val = 0x400 + 0x80 * i.val + 0x40 by ring,
    regionOf_point i (by omega)]
  rfl

/-- The words of the curve parameter registers (R66, R70). -/
theorem regionOf_curveWord (k : Fin 6) (j : Fin 8) :
    regionOf (BitVec.ofNat 12 (0xC00 + 0x20 * k.val + 4 * j.val)) = .curveWord k j := by
  have hk := k.isLt
  have hj := j.isLt
  have hn : (BitVec.ofNat 12 (0xC00 + 0x20 * k.val + 4 * j.val)).toNat =
      0xC00 + 0x20 * k.val + 4 * j.val := by
    rw [BitVec.toNat_ofNat]; omega
  simp only [regionOf, hn]
  repeat rw [if_neg (by omega)]
  rw [if_pos (by omega)]
  congr 1
  · apply Fin.ext; simp only [Fin.ofNat]; omega
  · apply Fin.ext; rw [laneAt_val]; omega

/-- An offset inside the window, reached at its physical address (R61). -/
theorem windowOffset_of_off (base : Nat) (off : Offset) :
    windowOffset base (base + off.toNat) = some off := by
  have := off.isLt
  simp only [windowOffset]
  rw [if_pos (by omega)]
  simp

end Sys2Proof.Laws
end

