-- ==== Sys2Proof/Tests/Slice0.lean ====
section
/-! SUPPORT. The model's own tests. Expected values are those of spec/95_test_vectors.md (V-…), or worked
out by hand on its toy curve; and a witness for the hypotheses of every statement that has some. -/

namespace Sys2Proof.Tests

set_option Elab.async false

open Sys2Proof Sys2Proof.Machine

/-! ### Helpers -/

/-- The state of an outcome, or a state of one's own where there is none. -/
def stateOr (s : State) : Host.Outcome State Fault Refusal → State
  | .next t => t
  | .fault _ | .refused _ => s

/-- One step that runs a command word. -/
def after (s : State) (w : Nat) : State := stateOr s (step (s.withFetchWord 32 w))

/-- The toy curve of V-T: y^2 = x^3 + 2 x + 3 over 97, G = (3, 6) of order 5. -/
def toyCurve : Curve := ⟨97#256, 2#256, 3#256, 3#256, 6#256, 5#256⟩

/-- A state on a given curve. -/
def onCurveState (c : Curve) : State := { State.reset with cfg := ⟨c, 0, 0⟩ }

def toy : State := onCurveState toyCurve

/-- A composite p, for the corners a prime p has not: y^2 = x^3 over 15. -/
def compositeCurve : Curve := ⟨15#256, 0#256, 0#256, 1#256, 1#256, 9#256⟩

/-- The toy curve with a base point of order 2. -/
def orderTwoCurve : Curve := ⟨97#256, 2#256, 3#256, 30#256, 0#256, 3#256⟩

def gToy : Point := .aff 3#256 6#256
def tToy : Point := .aff 30#256 0#256
def gx : Word := p256.gx
def gy : Word := p256.gy
def maxWord : Word := BitVec.allOnes 256

/-- d1, d2 and d3 hold values. -/
def withD (s : State) (a b c : Word) : State := ((s.writeD 1 a).writeD 2 b).writeD 3 c

/-- p1 and p2 hold points. -/
def withP (s : State) (a b : Point) : State := (s.writeP 1 a).writeP 2 b

/-- The port's next answers. -/
def withDraws (s : State) (l : List Word) : State := { s with entropy := l }

/-- A command in flight. -/
def inFlight (s : State) (w : BusWord) : State := s.issue w

/-! ### WellFormed: the one check, with the ill-formed term it refuses -/

theorem test_wellFormed_sign : (Instr.sign 3 3 1 2).wellFormed = false ∧
    (Instr.sign 3 4 1 2).wellFormed = true := by decide

theorem test_decode_refuses_ill_formed_sign : decode 0x22312300#32 = .error .signSameDestination := by
  rfl

/-! ### Decoding: words written from the fields of R90 and R97 -/

/-- V-E1 to V-E6, V-E17. -/
theorem test_decode_words : decode 0x00000000#32 = .ok .nop ∧
    decode 0x01312000#32 = .ok (.madd .p 3 1 2) ∧ decode 0x01312080#32 = .ok (.madd .n 3 1 2) ∧
    decode 0x0C210080#32 = .ok (.minv .n 2 1) ∧ decode 0x23213400#32 = .ok (.verify 1 2 3 4) ∧
    decode 0x22312400#32 = .ok (.sign 3 4 1 2) ∧ decode 0x22112200#32 = .ok (.sign 1 2 1 2) :=
  ⟨rfl, rfl, rfl, rfl, rfl, rfl, rfl⟩

/-- modular_adder_subtractor: OPC 02, 03, 04 with A, B and C as R97 places them. -/
theorem test_decode_adder : decode 0x02412000#32 = .ok (.msub .p 4 1 2) ∧
    decode 0x03F10080#32 = .ok (.mneg .n 15 1) ∧ decode 0x041F0000#32 = .ok (.mred .p 1 15) :=
  ⟨rfl, rfl, rfl⟩

/-- montgomery_multiplier: the words of program P1. -/
theorem test_decode_montgomery : decode 0x08867000#32 = .ok (.montmul .p 8 6 7) ∧
    decode 0x09512000#32 = .ok (.mmul .p 5 1 2) ∧ decode 0x0A610000#32 = .ok (.tomont .p 6 1) ∧
    decode 0x0B980000#32 = .ok (.frommont .p 9 8) ∧ decode 0x0CA10000#32 = .ok (.minv .p 10 1) :=
  ⟨rfl, rfl, rfl, rfl, rfl⟩

/-- Points: the words of program P2, and PMOV and PGETY with the same field places. -/
theorem test_decode_points : decode 0x10034000#32 = .ok (.pval 3 4) ∧
    decode 0x11734000#32 = .ok (.pload 7 3 4) ∧ decode 0x12500000#32 = .ok (.pinf 5) ∧
    decode 0x13100000#32 = .ok (.pgen 1) ∧ decode 0x14210000#32 = .ok (.pmov 2 1) ∧
    decode 0x15230000#32 = .ok (.pgetx 2 3) ∧ decode 0x16230000#32 = .ok (.pgety 2 3) ∧
    decode 0x17060000#32 = .ok (.pisinf 6) ∧ decode 0x18034000#32 = .ok (.peq 3 4) ∧
    decode 0x19510000#32 = .ok (.pneg 5 1) ∧ decode 0x1A321000#32 = .ok (.padd 3 2 1) ∧
    decode 0x1B210000#32 = .ok (.pdbl 2 1) :=
  ⟨rfl, rfl, rfl, rfl, rfl, rfl, rfl, rfl, rfl, rfl, rfl, rfl⟩

/-- Scalars and signatures: the words of programs P2, P3 and P5. -/
theorem test_decode_scalar : decode 0x1C411000#32 = .ok (.pmul 4 1 1) ∧
    decode 0x20470000#32 = .ok (.keygen 4 7) ∧ decode 0x21110000#32 = .ok (.pubkey 1 1) :=
  ⟨rfl, rfl, rfl⟩

/-- V-E7 to V-E12. -/
theorem test_decode_illegal_fixed_fields : decode 0x05000000#32 = .error .reservedOpcode ∧
    decode 0xFF000000#32 = .error .reservedOpcode ∧ decode 0x01312001#32 = .error .rsvNotZero ∧
    decode 0x00000001#32 = .error .rsvNotZero ∧ decode 0x00000080#32 = .error .modulusBitSet ∧
    decode 0x13100080#32 = .error .modulusBitSet := ⟨rfl, rfl, rfl, rfl, rfl, rfl⟩

/-- V-E13 to V-E15. -/
theorem test_decode_illegal_unused_fields : decode 0x10134000#32 = .error .unusedFieldNotZero ∧
    decode 0x0C211000#32 = .error .unusedFieldNotZero ∧
    decode 0x01312880#32 = .error .unusedFieldNotZero := ⟨rfl, rfl, rfl⟩

theorem test_encode_words : encode (.madd .n 3 1 2) = 0x01312080#32 ∧
    encode (.sign 3 4 1 2) = 0x22312400#32 ∧ encode (.verify 1 2 3 4) = 0x23213400#32 := by decide

theorem test_table_word : decodeTableWord 32 0x1C211000 = some (.pmul 2 1 1) ∧
    decodeTableWord 40 0 = none := ⟨rfl, rfl⟩

/-- The seventh row of R105, and the pseudo-instruction mmov (R103). -/
theorem test_assembler : assemble ⟨.op .sign, none, [.d 3, .d 4, .d 1, .d 2]⟩ =
      some (.sign 3 4 1 2) ∧
    assemble ⟨.mmov, some .n, [.d 3, .d 1]⟩ = some (.mred .n 3 1) ∧
    assemble ⟨.op .madd, none, [.d 3, .d 1, .d 2]⟩ = none := by decide

theorem test_line_text : lineText (disassemble (.madd .p 3 1 2)) = "madd.p d3, d1, d2" ∧
    lineText (disassemble (.verify 1 2 3 4)) = "verify p1, d2, d3, d4" := by decide

/-! ### Steps: control and field commands -/

/-- V-F17: NOP's STATUS is 2. -/
theorem test_nop : (after State.reset 0x00000000).windowRead 0x008#12 = 2#32 := by decide +kernel

/-- An illegal word: STATUS 0x12, nothing written (V-E7). -/
theorem test_illegal_word : (after State.reset 0x05000000).windowRead 0x008#12 = 0x12#32 := by
  decide +kernel

/-- V-F1. -/
theorem test_madd : (after (withD State.reset gx gy 0#256) 0x01312000).readD 3 =
    0xBAFB14D5DF46C1E387A4D22FDFB3DF08A2D1B0D8991C926FC05779AE1058148B#256 := by decide +kernel

/-- V-F4: unreduced operands, modulo n. -/
theorem test_madd_unreduced : (after (withD State.reset maxWord maxWord 0#256) 0x01312080).readD 3 =
    0x00000001FFFFFFFE000000000000000086320AA4B1D0C2F6188C6A7A0739B55C#256 := by decide +kernel

/-- V-F6: the order of the operands. -/
theorem test_msub : (after (withD State.reset gy gx 0#256) 0x02312000).readD 3 =
    0xE4CB70EF1CEE3D54962B0465186B5D23B4CAB5D73D462B2DD71507225F268F5E#256 := by decide +kernel

/-- V-F9: both sources and the destination in one register. -/
theorem test_msub_same : (after (withD State.reset gx 0#256 0#256) 0x02111000).readD 1 = 0#256 := by
  decide +kernel

/-- V-F10 and V-F12. -/
theorem test_mneg : (after (withD State.reset 0#256 0#256 9#256) 0x03310000).readD 3 = 0#256 ∧
    (after (withD State.reset gy 0#256 0#256) 0x03310000).readD 3 =
      0xB01CBD1C01E58065711814B583F061E9D431CCA994CEA1313449BF97C840AE0A#256 := by decide +kernel

/-- V-F15. -/
theorem test_mred : (after (withD State.reset maxWord 0#256 0#256) 0x04310080).readD 3 =
    0x00000000FFFFFFFF00000000000000004319055258E8617B0C46353D039CDAAE#256 := by decide +kernel

/-- V-M4 and V-M6. -/
theorem test_montmul : (after (withD State.reset gx gy 0#256) 0x08312000).readD 3 =
      0xC6D07B446E2462A58BD273E2834C5E4A7DFAFDB3096CDA3D31BAC195C45209AC#256 ∧
    (after (withD State.reset 1#256 1#256 0#256) 0x08312080).readD 3 =
      0x60D066334905C1E907F8B6041E607725BADEF3E243566FAFCE1BC8F79C197C79#256 := by decide +kernel

/-- V-M1. -/
theorem test_mmul : (after (withD State.reset gx gy 0#256) 0x09312000).readD 3 =
    0x823CD15F6DD3C71933565064513A6B2BD183E554C6A08622F713EBBBFACE98BE#256 := by decide +kernel

/-- V-M9. -/
theorem test_tomont : (after (withD State.reset gx 0#256 0#256) 0x0A310000).readD 3 =
    0x18905F76A53755C679FB732B7762251075BA95FC5FEDB60179E730D418A9143C#256 := by decide +kernel

/-- V-M12. -/
theorem test_frommont : (after (withD State.reset
      0x64CFE5D68F68C3F42C6C94E2B940CC5A04B39B8A74BD829A49131DD62DFA1C7D#256 0#256 0#256)
      0x0B310000).readD 3 =
    0x823CD15F6DD3C71933565064513A6B2BD183E554C6A08622F713EBBBFACE98BE#256 := by decide +kernel

/-- V-M18. -/
theorem test_minv : (after (withD State.reset 3#256 0#256 0#256) 0x0C310080).readD 3 =
    0xAAAAAAAA00000000AAAAAAAAAAAAAAAA7DEF51C91A0FBF034D26872CA84218E1#256 := by decide +kernel

/-- V-M23: the residue of p is 0; the destination keeps its value. -/
theorem test_minv_zero : (after (withD State.reset p256.p 0#256 9#256) 0x0C310000).errcode = 3#4 ∧
    (after (withD State.reset p256.p 0#256 9#256) 0x0C310000).readD 3 = 9#256 := by decide +kernel

/-- The constants of spec/95, section 2 (R41, R126). -/
theorem test_montgomery_constants :
    montOne p256.p.toNat = 0x00000000FFFFFFFEFFFFFFFFFFFFFFFFFFFFFFFF000000000000000000000001 ∧
    montRadixInv p256.p.toNat = 0xFFFFFFFE00000003FFFFFFFD0000000200000001FFFFFFFE0000000300000000 ∧
    montSquare p256.n.toNat = 0x66E12D94F3D956202845B2392B6BEC594699799C49BD6FA683244C95BE79EEA2 ∧
    (montNegInv p256.n.toNat * p256.n.toNat + 1) % 2 ^ 256 = 0 := by decide +kernel

/-! ### Steps: points -/

/-- V-P1 and V-P3. -/
theorem test_pval : (after (withD State.reset gx gy 0#256) 0x10012000).flag = true ∧
    (after (withD State.reset 0#256 0#256 0#256) 0x10012000).flag = false := by decide +kernel

/-- V-P6: stored reduced. -/
theorem test_pload : (after (withD State.reset p256.p
      0x66485C780E2F83D72433BD5D84A06BB6541C2AF31DAE871728BF856A174F93F4#256 0#256)
      0x11312000).readP 3 =
    .aff 0#256 0x66485C780E2F83D72433BD5D84A06BB6541C2AF31DAE871728BF856A174F93F4#256 := by
  decide +kernel

/-- V-P7. -/
theorem test_pload_off_curve :
    (after (withD State.reset gx (gy + 1#256) 0#256) 0x11312000).errcode = 2#4 := by decide +kernel

theorem test_pinf : (after (withP toy gToy gToy) 0x12100000).readP 1 = .inf := by decide +kernel

theorem test_pgen : (after toy 0x13100000).readP 1 = gToy := by decide +kernel

/-- V-P22. -/
theorem test_pmov : (after (withP toy gToy tToy) 0x14120000).readP 1 = tToy ∧
    (after (withP toy gToy tToy) 0x14120000).readP 2 = tToy := by decide +kernel

/-- V-P9 and V-P10. -/
theorem test_pgetx : (after (withP toy gToy .inf) 0x15310000).readD 3 = 3#256 ∧
    (after (withP toy gToy .inf) 0x15320000).errcode = 4#4 := by decide +kernel

theorem test_pgety : (after (withP toy gToy .inf) 0x16310000).readD 3 = 6#256 ∧
    (after (withP toy gToy .inf) 0x16320000).errcode = 4#4 := by decide +kernel

/-- V-P20. -/
theorem test_pisinf : (after (withP toy .inf gToy) 0x17010000).flag = true ∧
    (after (withP toy .inf gToy) 0x17020000).flag = false := by decide +kernel

/-- V-P21. -/
theorem test_peq : (after (withP toy .inf .inf) 0x18012000).flag = true ∧
    (after (withP toy gToy (.aff 3#256 91#256)) 0x18012000).flag = false ∧
    (after (withP toy gToy .inf) 0x18012000).flag = false := by decide +kernel

/-- V-P11 on the toy curve: - 6 = 91 modulo 97; INF stays INF. -/
theorem test_pneg : (after (withP toy gToy .inf) 0x19310000).readP 3 = .aff 3#256 91#256 ∧
    (after (withP toy gToy .inf) 0x19320000).readP 3 = .inf := by decide +kernel

/-- V-T3: T + T is INF, the inverse case before the doubling case. -/
theorem test_padd_order_two : (after (withP toy tToy tToy) 0x1A312000).readP 3 = .inf ∧
    (after (withP toy tToy tToy) 0x1A312000).errcode = 0#4 := by decide +kernel

/-- V-P17: 2 G + G = 3 G on P-256. -/
theorem test_padd_chord : (after (withP State.reset
      (.aff 0x7CF27B188D034F7E8A52380304B51AC3C08969E277F21B35A60B48FC47669978#256
        0x07775510DB8ED040293D9AC69F7430DBBA7DADE63CE982299E04B79D227873D1#256)
      (basePoint p256)) 0x1A312000).readP 3 =
    .aff 0x5ECBE4D1A6330A44C8F7EF951D4BF165E6C6B721EFADA985FB41661BC6E7FD6C#256
      0x8734640C4998FF7E374B06CE1A64A2ECD82AB036384FB83D9A79B127A27D5032#256 := by decide +kernel

/-- V-T6 and V-T2. -/
theorem test_pdbl : (after (withP toy gToy tToy) 0x1B310000).readP 3 = .aff 80#256 10#256 ∧
    (after (withP toy gToy tToy) 0x1B320000).errcode = 3#4 := by decide +kernel

/-- V-T6 and V-T5. -/
theorem test_pmul : (after (withP (withD toy 3#256 0#256 0#256) gToy tToy) 0x1C311000).readP 3 =
      .aff 80#256 87#256 ∧
    (after (withP (withD toy 3#256 0#256 0#256) gToy tToy) 0x1C312000).errcode = 3#4 := by
  decide +kernel

/-- V-S6. -/
theorem test_pmul_p256 : (after (withP (withD State.reset 7#256 0#256 0#256) (basePoint p256) .inf)
      0x1C311000).readP 3 =
    .aff 0x8E533B6FA0BF7B4625BB30667C01FB607EF9F8B8A80FEF5B300628703187B2A3#256
      0x73EB1DBDE03318366D069F83A6F5900053C73633CB041B21C55E1A86C1F400B4#256 := by decide +kernel

/-! ### Steps: key pair and signatures -/

/-- V-K1. -/
theorem test_keygen : (after (withDraws State.reset [12345#256]) 0x20110000).readD 1 = 0x3039#256 ∧
    (after (withDraws State.reset [12345#256]) 0x20110000).readP 1 =
      .aff 0x26EFCEBD0EE9E34A669187E18B3A9122B2F733945B649CC9F9F921E9F9DAD812#256
        0x90238BDE9CC7BB330D150C67704DD25AE7055205744B6F31BF4070745872D0E6#256 := by decide +kernel

/-- V-T7 and V-T8. -/
theorem test_keygen_bounds : (after (withDraws toy [5#256]) 0x20470000).errcode = 5#4 ∧
    (after (withDraws toy [0#256, 1#256]) 0x20470000).readP 7 = .inf ∧
    (after (withDraws toy [0#256, 1#256]) 0x20470000).entropy = [1#256] := by decide +kernel

/-- V-T6's 3 G. -/
theorem test_pubkey : (after (withD toy 3#256 0#256 0#256) 0x21310000).readP 3 =
    .aff 80#256 87#256 := by decide +kernel

/-- V-K5. -/
theorem test_sign : (fun t : State => (t.readD 3, t.readD 4)) (after (withDraws (withD State.reset
      12345#256 0xB94D27B9934D3E08A52E52D7DA7DABFAC484EFE37A5380EE9088F7ACE2EFCDE9#256 0#256)
      [7#256]) 0x22312400) =
    (0x14E3602F020FE3CB5C3BB73A9F3507DC5BFB541DB7B4F2DF0541FCB1D3473B8F#256,
      0x371E1CD633F2454E809562B1A67C509ABA7D175BD25C6FB5A08EDFDCD3687F4A#256) := by decide +kernel

/-- V-K16 (R = INF) and V-K19 (no draw is made). -/
theorem test_sign_errors : (after (withDraws toy [0#256]) 0x22312400).errcode = 3#4 ∧
    (after (withDraws toy [1#256]) 0x22312300).errcode = 1#4 ∧
    (after (withDraws toy [1#256]) 0x22312300).entropy = [1#256] := by decide +kernel

/-- V-K12: key 0, K = INF, s = 7. -/
theorem test_verify : (after ((withD State.reset 7#256
      0xB94D27B9934D3E08A52E52D7DA7DABFAC484EFE37A5380EE9088F7ACE2EFCDE9#256
      0x371E1CD633F2454E809562B1A67C509ABA7D175BD25C6FB5A08EDFDCD3687F4A#256))
      0x23211300).flag = true := by decide +kernel

/-- V-T9 and V-K18: an internal error and R2 = INF are a FLAG of 0, not an error. -/
theorem test_verify_never_raises :
    (after (withP (withD { toy with flag := true } 1#256 0#256 2#256) tToy .inf) 0x23211300).flag
      = false ∧
    (after (withP (withD { toy with flag := true } 1#256 0#256 2#256) tToy .inf) 0x23211300).errcode
      = 0#4 ∧
    (after (withP { toy with flag := true } gToy .inf) 0x23211300).flag = false := by decide +kernel

/-! ### The register window and reset -/

/-- V-B1, V-B2, V-B7. -/
theorem test_window_constants : State.reset.windowRead 0x000#12 = 0x4D4D0001#32 ∧
    State.reset.windowRead 0xC1C#12 = 0xFFFFFFFF#32 ∧
    State.reset.windowRead 0xCBC#12 = 0xFC632551#32 ∧ State.reset.windowRead 0x010#12 = 0#32 ∧
    State.reset.windowRead 0x4C0#12 = 1#32 := by decide +kernel

/-- V-B3: the first and the last word of D2. -/
theorem test_window_write : ((State.reset.windowWrite 0x140#12 0xB94D27B9#32).windowWrite 0x15C#12
      0xE2EFCDE9#32).readD 2 =
    0xB94D27B9000000000000000000000000000000000000000000000000E2EFCDE9#256 := by decide +kernel

/-- V-B5: X word 0, Y word 0, and the INF word. -/
theorem test_window_point : (withP toy (.aff (1#256 <<< 224) 10#256) .inf).windowRead 0x480#12 = 1#32 ∧
    (withP toy (.aff 3#256 10#256) .inf).windowRead 0x4BC#12 = 10#32 ∧
    (withP toy (.aff 3#256 10#256) .inf).windowRead 0x4C0#12 = 0#32 := by decide +kernel

/-- V-B8 and a read of ID, through the bus. -/
theorem test_bus : (State.reset.busAccess (.read .w32 0)).responses = [.data 0x4D4D0001#32] ∧
    State.reset.busAccess (.write .w16 0x004 1#32) =
      { State.reset with responses := [.busError 0x004#12] } ∧
    State.reset.busAccess (.read .w32 0x102) =
      { State.reset with responses := [.busError 0x102#12] } := by decide +kernel

/-- V-B9, V-B10, V-B11. -/
theorem test_cmd_write :
    (State.reset.windowWrite 0x00C#12 0x13100000#32).windowRead 0x008#12 = 1#32 ∧
    ((inFlight State.reset 0x13100000#32).windowWrite 0x11C#12 5#32).windowRead 0x008#12 = 9#32 ∧
    (((inFlight State.reset 0x13100000#32).windowWrite 0x00C#12 5#32).windowWrite 0x008#12
      8#32).windowRead 0x008#12 = 1#32 := by decide +kernel

/-- V-B13 and V-R3. -/
theorem test_interrupt : (after (State.reset.windowWrite 0x004#12 1#32) 0).irq = true ∧
    ((after (State.reset.windowWrite 0x004#12 1#32) 0).windowWrite 0x008#12 2#32).irq = false ∧
    (State.reset.windowWrite 0x004#12 1#32).windowRead 0x004#12 = 1#32 := by decide +kernel

/-- V-R2. -/
theorem test_soft_reset : (inFlight (withD toy 1#256 2#256 3#256) 0x1C312000#32).windowWrite 0x004#12
    3#32 = toy := by decide +kernel

/-- With nothing scheduled the block idles (R271). -/
theorem test_idle : stateOr toy (step State.reset) = State.reset := by decide +kernel

/-- R293: a run is open for a host access to come or a command in flight, and for nothing else. -/
theorem test_run_over : State.runOver { toy with events := [.hardReset, .engine] } = true ∧
    State.runOver { toy with events := [.engine, .bus (.read .w8 0)] } = false ∧
    State.runOver { inFlight toy 0#32 with events := [.hardReset] } = false := by decide +kernel

/-- R293: the observation is taken where the run is over, before a reset that comes later. -/
theorem test_run_observation : State.runObservation 3 { toy with
      events := [.bus (.write .w32 0x004 1#32), .hardReset] } =
    some (State.observe { toy with ie := true }) := by decide +kernel

/-! ### Witnesses: the hypotheses of the statements can be met, clause by clause -/

theorem witness_DecodeOfEncode : (Instr.sign 15 0 15 15).wellFormed = true ∧
    (Instr.madd .n 15 15 15).wellFormed = true := by decide

theorem witness_EncodeOfDecode : decode 0x22F00F00#32 = .error .signSameDestination ∧
    decode 0x22F00E00#32 = .ok (.sign 15 14 0 0) := ⟨rfl, rfl⟩

/-- A word for each condition, with a field at its largest value; and words that meet none. -/
theorem witness_IllegalWords : illegalWord 0x24000000#32 ∧ illegalWord 0x00000040#32 ∧
    illegalWord 0x23213480#32 ∧ illegalWord 0x10F34000#32 ∧ illegalWord 0x12510000#32 ∧
    illegalWord 0x0C21F000#32 ∧ illegalWord 0x01312F00#32 ∧ illegalWord 0x22312300#32 ∧
    ¬ illegalWord 0x22312400#32 ∧ ¬ illegalWord 0x00000000#32 :=
  ⟨by decide, by decide, by decide, by decide, by decide, by decide, by decide, by decide,
    by decide, by decide⟩

theorem witness_IllegalWords_states : (inFlight toy 0x22312300#32).busy = true ∧
    illegalWord (inFlight toy 0x22312300#32).cur ∧ (inFlight State.reset 0xFF000000#32).busy = true ∧
    illegalWord (inFlight State.reset 0xFF000000#32).cur := by decide

theorem witness_AssemblerReadsLines : Opcode.minv.usesM = true := by decide

theorem witness_StepRunsTheDecodedCommand :
    configWf (inFlight toy 0#32).cfg = true ∧ (inFlight toy 0#32).busy = true ∧
    decode (inFlight toy 0#32).cur = .ok .nop ∧ (inFlight toy 0#32).events = [] ∧
    decode (inFlight toy 0x40#32).cur = .error .rsvNotZero ∧
    (inFlight toy 0x40#32).events = [] ∧ (toy.loadCommand 0x40#32).events = [.engine] ∧
    configWf (toy.loadCommand 0#32).cfg = true ∧ (toy.loadCommand 0#32).busy = true ∧
    decode (toy.loadCommand 0#32).cur = .ok .nop ∧ (toy.loadCommand 0#32).events = [.engine] :=
  ⟨by decide +kernel, rfl, rfl, rfl, rfl, rfl, rfl, by decide +kernel, rfl, rfl, rfl⟩

/-- One state for each kind of next event, and the idle one. -/
theorem witness_StepTakesTheNextEvent : configWf toy.cfg = true ∧
    State.events { toy with events := [.bus (.read .w8 5)] } = [.bus (.read .w8 5)] ∧
    State.events { toy with events := [.hardReset, .engine] } = [.hardReset, .engine] ∧
    State.busy { toy with events := [.engine] } = false ∧
    State.events { toy with events := [.engine] } = [.engine] ∧
    toy.busy = false ∧ toy.events = [] := by decide +kernel

theorem witness_StepStopsOnlyOnIllFormedConfig : configWf toy.cfg = true ∧
    curveWf (onCurveState ⟨4#256, 2#256, 3#256, 3#256, 6#256, 5#256⟩).cfg.curve = false ∧
    curveWf (State.cfg { toy with cfg := ⟨toyCurve, 4, 0⟩ }).curve = true ∧
    (State.cfg { toy with cfg := ⟨toyCurve, 4, 0⟩ }).windowBase % 4096 ≠ 0 := by decide +kernel

theorem witness_NopOnlyCompletes : BitVec.extractLsb' 24 8 0x00000080#32 = 0#8 ∧
    0x00000080#32 ≠ 0#32 ∧ State.reset.flag = false ∧ State.reset.werr = false := by decide

/-- The one hypothesis of the field commands' statements, and of PVAL, PLOAD, PNEG, PADD and PDBL. -/
theorem witness_curveWf : curveWf toy.cfg.curve = true ∧ curveWf State.reset.cfg.curve = true ∧
    curveWf compositeCurve = true ∧ curveWf orderTwoCurve = true := by decide +kernel

/-- The largest residue, the residue 0 of an unreduced operand, and one not coprime to a composite p. -/
theorem witness_MinvWritesTheInverse : curveWf toy.cfg.curve = true ∧
    Nat.gcd ((withD toy 96#256 97#256 0#256).readD 1).toNat (toy.modulus .p) = 1 ∧
    ((withD toy 96#256 97#256 0#256).readD 2).toNat % toy.modulus .p = 0 ∧
    curveWf compositeCurve = true ∧
    Nat.gcd ((withD (onCurveState compositeCurve) 3#256 0#256 0#256).readD 1).toNat
      ((onCurveState compositeCurve).modulus .p) ≠ 1 := by decide +kernel

theorem witness_FieldResultsIgnoreReduction : 3 ≤ (3#256).toNat ∧ (3#256).toNat % 2 = 1 := by decide

theorem witness_MontgomeryAndResponseLaws : 3 ≤ (3#256).toNat ∧ (3#256).toNat % 2 = 1 ∧
    curveWf toyCurve = true := by decide +kernel

/-- 127 = 30 and 97 = 0 modulo 97: unreduced coordinates of T; and a pair off the curve. -/
theorem witness_PloadValidatesAndReduces : curveWf toy.cfg.curve = true ∧
    (((withD toy 127#256 97#256 1#256).readD 2).toNat
      * ((withD toy 127#256 97#256 1#256).readD 2).toNat) % 97 =
      (((withD toy 127#256 97#256 1#256).readD 1).toNat ^ 3
        + 2 * ((withD toy 127#256 97#256 1#256).readD 1).toNat + 3) % 97 ∧
    (((withD toy 127#256 97#256 1#256).readD 3).toNat
      * ((withD toy 127#256 97#256 1#256).readD 3).toNat) % 97 ≠
      (((withD toy 127#256 97#256 1#256).readD 1).toNat ^ 3
        + 2 * ((withD toy 127#256 97#256 1#256).readD 1).toNat + 3) % 97 := by decide +kernel

/-- The point forms of CoordinateReads, PnegNegatesY, PdblDoubles and the identity cases of PADD. -/
theorem witness_pointForms : (withP toy gToy .inf).readP 1 = .aff 3#256 6#256 ∧
    (withP toy gToy .inf).readP 2 = .inf ∧ (withP toy tToy .inf).readP 1 = .aff 30#256 0#256 ∧
    Nat.gcd (2 * (6#256).toNat) toy.cfg.curve.p.toNat = 1 ∧ curveWf toy.cfg.curve = true := by
  decide +kernel

/-- P + (- P), and the y = 0 boundary of the same clause. -/
theorem witness_PaddIdentityAndInverse :
    (withP toy gToy (.aff 3#256 91#256)).readP 1 = .aff 3#256 6#256 ∧
    (withP toy gToy (.aff 3#256 91#256)).readP 2 = .aff 3#256 91#256 ∧
    (6#256).toNat < toy.cfg.curve.p.toNat ∧
    ((6#256).toNat + (91#256).toNat) % toy.cfg.curve.p.toNat = 0 ∧
    (withP toy tToy tToy).readP 1 = .aff 30#256 0#256 ∧
    (withP toy tToy tToy).readP 2 = .aff 30#256 0#256 ∧
    ((0#256).toNat + (0#256).toNat) % toy.cfg.curve.p.toNat = 0 := by decide +kernel

theorem witness_PaddTangentAndChord : curveWf toy.cfg.curve = true ∧
    (withP toy gToy gToy).readP 1 = .aff 3#256 6#256 ∧
    (withP toy gToy gToy).readP 2 = .aff 3#256 6#256 ∧
    Nat.gcd (2 * (6#256).toNat) toy.cfg.curve.p.toNat = 1 ∧
    (withP toy gToy (.aff 80#256 10#256)).readP 2 = .aff 80#256 10#256 ∧
    Int.gcd (((80#256).toNat : Int) - (3#256).toNat) toy.cfg.curve.p.toNat = 1 := by decide +kernel

/-- Equal x, y neither equal nor opposite: a state no run on a prime p reaches. -/
theorem witness_PaddFailsOnZeroDenominator : curveWf toy.cfg.curve = true ∧
    (withP toy gToy (.aff 3#256 7#256)).readP 1 = .aff 3#256 6#256 ∧
    (withP toy gToy (.aff 3#256 7#256)).readP 2 = .aff 3#256 7#256 ∧
    (3#256).toNat % toy.cfg.curve.p.toNat = (3#256).toNat % toy.cfg.curve.p.toNat ∧
    ¬ (3#256 = 3#256 ∧ (6#256 = 7#256 ∨ ((6#256).toNat < toy.cfg.curve.p.toNat ∧
      ((6#256).toNat + (7#256).toNat) % toy.cfg.curve.p.toNat = 0))) := by decide +kernel

theorem witness_GroupLawsOnValidPoints : curveWf toyCurve = true ∧ pointValid toyCurve gToy = true ∧
    pointValid toyCurve tToy = true ∧ gToy = .aff 3#256 6#256 ∧ 6#256 ≠ 0#256 ∧
    tToy = .aff 30#256 0#256 := by decide +kernel

theorem prime_97 : Nat.Prime toyCurve.p.toNat := by
  have h : toyCurve.p.toNat = 97 := by decide
  rw [h]
  norm_num

theorem witness_PaddIsTotalOnValidPoints : Nat.Prime toyCurve.p.toNat ∧ curveWf toyCurve = true ∧
    pointValid toyCurve gToy = true ∧ pointValid toyCurve tToy = true :=
  ⟨prime_97, by decide +kernel, by decide +kernel, by decide +kernel⟩

/-- 2 G is a point; 2 T raises (V-T5). -/
theorem witness_PmulWritesTheMultiple :
    smul toyCurve ((withD toy 2#256 0#256 0#256).readD 1) ((withP toy gToy tToy).readP 1) =
      .ok (.aff 80#256 10#256) ∧
    smul toyCurve ((withD toy 2#256 0#256 0#256).readD 1) ((withP toy gToy tToy).readP 2) =
      .error .arithmetic := by decide +kernel

theorem primeOrder_toy : primeOrderCurve toyCurve :=
  ⟨prime_97, by decide +kernel, by decide +kernel, by decide +kernel⟩

theorem witness_ScalarMayBeReducedModOrder : ∃ c : Curve, primeOrderCurve c := ⟨_, primeOrder_toy⟩

/-- The largest draw below n, and n itself. -/
theorem witness_KeygenWritesTheKeyPair :
    (withDraws toy [4#256]).drawn.toNat < (withDraws toy [4#256]).cfg.curve.n.toNat ∧
    smul toyCurve (withDraws toy [4#256]).drawn (basePoint toyCurve) = .ok (.aff 3#256 91#256) ∧
    (withDraws toy [5#256]).cfg.curve.n.toNat ≤ (withDraws toy [5#256]).drawn.toNat := by
  decide +kernel

/-- 2 T raises for G = T of order 2 with n = 3, and the port's first answer is the draw. -/
theorem witness_KeygenWritesTheKeyPair_arithmetic :
    (withDraws (onCurveState orderTwoCurve) [2#256]).entropy = [2#256] ∧
    (withDraws (onCurveState orderTwoCurve) [2#256]).drawn.toNat < orderTwoCurve.n.toNat ∧
    smul orderTwoCurve (withDraws (onCurveState orderTwoCurve) [2#256]).drawn
      (basePoint orderTwoCurve) = .error .arithmetic := by decide +kernel

theorem witness_PubkeyWritesThePublicPoint :
    smul toyCurve ((withD toy 2#256 0#256 0#256).readD 1) (basePoint toyCurve) =
      .ok (.aff 80#256 10#256) ∧
    smul orderTwoCurve ((withD toy 2#256 0#256 0#256).readD 1) (basePoint orderTwoCurve) =
      .error .arithmetic := by decide +kernel

theorem witness_SignWritesTheSignature : curveWf (withDraws toy [2#256]).cfg.curve = true ∧
    (3 : DReg) ≠ 4 ∧ (withDraws toy [2#256]).drawn.toNat < toyCurve.n.toNat ∧
    smul toyCurve (withDraws toy [2#256]).drawn (basePoint toyCurve) =
      .ok (.aff 80#256 10#256) := by decide +kernel

theorem witness_SignFailsInOrder : toyCurve.n.toNat ≤ (withDraws toy [5#256]).drawn.toNat ∧
    (withDraws toy [0#256]).drawn.toNat < toyCurve.n.toNat ∧
    ∀ x y, smul toyCurve (withDraws toy [0#256]).drawn (basePoint toyCurve) ≠ .ok (.aff x y) := by
  refine ⟨by decide +kernel, by decide +kernel, fun x y h => ?_⟩
  have h0 : smul toyCurve (withDraws toy [0#256]).drawn (basePoint toyCurve) = .ok .inf := by
    decide +kernel
  rw [h0] at h
  cases h

/-- Private key 3, K = 3 G, digest 1000, draw 2: a signature and the state that verifies it. -/
def signer : State := withDraws (withD toy 3#256 1000#256 0#256) [2#256]

def signed : State := stateOr signer (exec (.sign 3 4 1 2) signer)

def verifier : State := withP signed (.aff 80#256 87#256) .inf

theorem exec_signer : exec (.sign 3 4 1 2) signer = .next signed := by
  obtain ⟨s', r, _, h⟩ := Laws.exec_is_completion (.sign 3 4 1 2) signer
  rw [signed, h]
  rfl

theorem witness_SignThenVerifyAccepts : primeOrderCurve signer.cfg.curve ∧
    exec (.sign 3 4 1 2) signer = .next signed ∧ signed.errcode = 0#4 ∧
    verifier.cfg = signer.cfg ∧
    smul signer.cfg.curve (signer.readD 1) (basePoint signer.cfg.curve) = .ok (verifier.readP 1) ∧
    verifier.readD 2 = signer.readD 2 ∧ verifier.readD 3 = signed.readD 3 ∧
    verifier.readD 4 = signed.readD 4 :=
  ⟨primeOrder_toy, exec_signer, by decide +kernel, by decide +kernel, by decide +kernel, by decide +kernel,
    by decide +kernel, by decide +kernel⟩

/-- A command that fails, for the clause on errors. -/
theorem witness_EveryCommandCompletesPrecisely :
    (after (withD toy 0#256 0#256 0#256) 0x0C310000).errcode ≠ 0#4 := by decide +kernel

theorem witness_FlagRules : (stateOr toy (exec (.pisinf 1) toy)).flag ≠ toy.flag ∧
    writesFlag (.pisinf 1) = true := by decide +kernel

theorem witness_OnlyDestinationsAreWritten : exec .nop toy = .next (toy.complete (.ok commitNone)) ∧
    (0x00C#12).toNat % 4 = 0 ∧ 0x00C#12 ≠ 0x008#12 ∧ (0x0FC#12).toNat < 0x100 ∧
    0xC00 ≤ (0xC00#12).toNat ∧ (5 : DReg) ∉ writtenD (.madd .p 3 1 2) ∧
    (5 : PReg) ∉ writtenP (.pgen 1) :=
  ⟨rfl, by decide, by decide, by decide, by decide, by decide, by decide⟩

theorem witness_PointRegistersStayValid : Nat.Prime toy.cfg.curve.p.toNat ∧ toy.pointsValid ∧
    (withP toy gToy tToy).pointsValid ∧ step toy = .next toy :=
  ⟨prime_97, by decide +kernel, by decide +kernel, by rfl⟩

theorem witness_StatusStaysConsistent : toy.statusConsistent ∧
    (inFlight toy 0x13100000#32).statusConsistent ∧ step toy = .next toy :=
  ⟨by decide, by decide, by rfl⟩

theorem witness_ConfigurationNeverChanges : step toy = .next toy := by rfl

/-- Writes that are no soft reset: CTRL with bit 1 clear, and CTRL with bit 1 set in 16 bits. -/
theorem witness_CommandInFlightIsUndisturbed : (inFlight toy 0x13100000#32).busy = true ∧
    isSoftReset toy.cfg (.write .w32 0x004 1#32) = false ∧
    isSoftReset toy.cfg (.write .w16 0x004 2#32) = false ∧
    isSoftReset toy.cfg (.read .w32 0x004) = false ∧
    isSoftReset toy.cfg (.write .w32 0x004 2#32) = true := by decide

/-- A PGEN in flight, with a read and a write of STATUS before the engine's turn. -/
def delayed : State :=
  { inFlight toy 0x13100000#32 with
    events := [.bus (.read .w32 0x008), .bus (.write .w32 0x008 8#32), .engine, .hardReset] }

theorem witness_LatencyIsNotObservable : configWf delayed.cfg = true ∧ delayed.busy = true ∧
    decode delayed.cur = .ok (.pgen 1) ∧
    (∀ a ∈ [Access.read .w32 0x008, .write .w32 0x008 8#32],
      isSoftReset delayed.cfg a = false) ∧
    delayed.events = [Access.read .w32 0x008, .write .w32 0x008 8#32].map .bus
      ++ .engine :: [.hardReset] ∧
    exec (.pgen 1) delayed = .next (delayed.complete (.ok (commitP 1 gToy))) :=
  ⟨by decide +kernel, rfl, rfl, by decide, rfl, rfl⟩

theorem witness_EveryRunEnds : configWf delayed.cfg = true ∧ delayed.runOver = false := by
  decide +kernel

theorem witness_HardwareReset : configWf toy.cfg = true ∧
    State.events { inFlight toy 0#32 with events := [.hardReset] } = [.hardReset] := by
  decide +kernel

theorem witness_SoftReset : (2#32).getLsbD 1 = true ∧ (3#32).getLsbD 1 = true ∧
    (inFlight toy 0#32).busy = true ∧
    ((inFlight toy 0#32).busAccess (.write .w32 0x004 3#32)).busy = false := by decide

theorem witness_WindowReadsTheRegisters : (withP toy gToy .inf).readP 1 = .aff 3#256 6#256 ∧
    (withP toy gToy .inf).readP 2 = .inf ∧ 31 < 32 := by decide

/-- The first and the last word of every reserved block, and of the read-only ones. -/
theorem witness_ReservedAndReadOnlyWords :
    (∀ n ∈ [0x010, 0x0FC], (BitVec.ofNat 12 n).toNat % 4 = 0 ∧ 0x010 ≤ (BitVec.ofNat 12 n).toNat ∧
      (BitVec.ofNat 12 n).toNat ≤ 0x0FF) ∧
    (∀ n ∈ [0x300, 0x3FC], (BitVec.ofNat 12 n).toNat % 4 = 0 ∧ 0x300 ≤ (BitVec.ofNat 12 n).toNat ∧
      (BitVec.ofNat 12 n).toNat ≤ 0x3FF) ∧
    (∀ n ∈ [0xCC0, 0xFFC], (BitVec.ofNat 12 n).toNat % 4 = 0 ∧ 0xCC0 ≤ (BitVec.ofNat 12 n).toNat) ∧
    (∀ n ∈ [0x444, 0x47C, 0xBC4, 0xBFC], (BitVec.ofNat 12 n).toNat % 4 = 0 ∧
      0x400 ≤ (BitVec.ofNat 12 n).toNat ∧ (BitVec.ofNat 12 n).toNat < 0xC00 ∧
      0x44 ≤ (BitVec.ofNat 12 n).toNat % 0x80) ∧
    (∀ n ∈ [0x400, 0xCBC], (BitVec.ofNat 12 n).toNat % 4 = 0 ∧ 0x400 ≤ (BitVec.ofNat 12 n).toNat ∧
      (BitVec.ofNat 12 n).toNat < 0xCC0) := by decide

theorem witness_BusErrorsHaveNoEffect : windowOffset toy.cfg.windowBase 0xFFF = some 0xFFF#12 ∧
    Width.w8 ≠ .w32 ∧ (0xFFF#12).toNat % 4 ≠ 0 ∧ windowOffset 4096 4096 = some 0x000#12 ∧
    Width.w64 ≠ .w32 := by decide

theorem witness_ReadsHaveNoSideEffect : windowOffset toy.cfg.windowBase 0xFFC = some 0xFFC#12 ∧
    (0xFFC#12).toNat % 4 = 0 ∧ toy.cfg.windowBase + 4096 ≤ 4096 ∧
    4095 < (State.cfg { toy with cfg := ⟨toyCurve, 4096, 0⟩ }).windowBase := by decide

theorem witness_CmdWrite : (inFlight toy 0#32).busy = true ∧ toy.busy = false := by decide

theorem witness_StatusAndInterrupt : exec .nop toy = .next (toy.complete (.ok commitNone)) ∧
    (2#32).getLsbD 1 = true ∧ toy.busy = false := ⟨rfl, by decide, by decide⟩

/-- The first and the last word of the data registers. -/
theorem witness_DataWordAndCtrlWrites : (inFlight toy 0#32).busy = true ∧ toy.busy = false ∧
    (0x2FC#12).toNat % 4 = 0 ∧ 0x2FC#12 ≠ 0x100#12 ∧ (1#32).getLsbD 1 = false ∧
    (0xFFFFFFFD#32).getLsbD 1 = false := by decide

theorem witness_DigestWordsMakeTheDigest : toy.busy = false := by decide

end Sys2Proof.Tests
end

section
/-! SUPPORT. Laws of MINV's inverse and of a step's outcome, and the statements on scope and
configuration (R9, R15, R25, R32, R38, R61, R132, R160) settled with them. -/

namespace Sys2Proof.Proofs

open Sys2Proof.Machine Sys2Proof.Laws

/-! ### The modulus of a field command and its inverse -/

/-- The modulus of a field command is a register's value, odd and at least 3 (R9, R93). -/
theorem exists_word_modulus {s : State} (h : curveWf s.cfg.curve = true) (m : Modulus) :
    ∃ M : Word, s.modulus m = M.toNat ∧ 3 ≤ M.toNat ∧ M.toNat % 2 = 1 := by
  obtain ⟨hp, hpOdd, _, hn, hnOdd, _⟩ := curveWf_bounds h
  cases m with
  | p => exact ⟨s.cfg.curve.p, rfl, hp, hpOdd⟩
  | n => exact ⟨s.cfg.curve.n, rfl, hn, hnOdd⟩

/-- A residue 0 is not coprime to M. -/
theorem gcd_ne_one_of_mod_eq_zero {a m : Nat} (hm : 1 < m) (h : a % m = 0) : Nat.gcd a m ≠ 1 := by
  rw [Nat.gcd_eq_right (Nat.dvd_of_mod_eq_zero h)]
  omega

/-- MINV's guard on the raw operand: it lets through exactly the operands coprime to M (R132). -/
theorem modInv_eq_ite (a : Word) {m : Nat} (hm : 1 < m) :
    modInv a m = if Nat.gcd a.toNat m = 1 then some (toWord (invmod (a.toNat % m) m)) else none := by
  have hgcd : Nat.gcd (a.toNat % m) m = Nat.gcd a.toNat m := by
    rw [← Nat.gcd_rec, Nat.gcd_comm]
  simp only [modInv, modulo_natCast, hgcd]
  by_cases hg : Nat.gcd a.toNat m = 1
  · rw [if_pos hg, if_neg (not_or.2 ⟨fun h => gcd_ne_one_of_mod_eq_zero hm h hg, not_not.2 hg⟩)]
  · rw [if_neg hg, if_pos (.inr hg)]

/-- An operand coprime to M has its inverse in [1, M) as MINV's value (R15, R132). -/
theorem modInv_of_coprime {a M : Word} (hM : 3 ≤ M.toNat) (h : Nat.gcd a.toNat M.toNat = 1) :
    ∃ t, modInv a M.toNat = some t ∧ 1 ≤ t.toNat ∧ t.toNat < M.toNat ∧
      (a.toNat * t.toNat) % M.toNat = 1 := by
  have hres : Nat.gcd (a.toNat % M.toNat % M.toNat) M.toNat = 1 := by
    rw [Nat.mod_mod, ← Nat.gcd_rec, Nat.gcd_comm, h]
  obtain ⟨hpos, hlt, hinv⟩ := invmod_spec (by omega) M.isLt.le hres
  rw [Nat.mod_mul_mod] at hinv
  refine ⟨_, by rw [modInv_eq_ite a (by omega), if_pos h], ?_⟩
  rw [toWord_toNat (hlt.trans M.isLt)]
  exact ⟨hpos, hlt, hinv⟩

/-- An operand that is not coprime to M, one of residue 0 among them, has no inverse (R132). -/
theorem modInv_eq_none {a : Word} {m : Nat} (hm : 1 < m)
    (h : a.toNat % m = 0 ∨ Nat.gcd a.toNat m ≠ 1) : modInv a m = none := by
  have hg : Nat.gcd a.toNat m ≠ 1 := h.elim (gcd_ne_one_of_mod_eq_zero hm) id
  rw [modInv_eq_ite a hm, if_neg hg]

theorem exec_minv_of_some {s : State} {m : Modulus} {rd ra : DReg} {t : Word}
    (h : modInv (s.readD ra) (s.modulus m) = some t) :
    exec (.minv m rd ra) s = .next (s.complete (.ok (commitD rd t))) := by
  simp only [exec, execMinv, minvResult, h, finish]

theorem exec_minv_of_none {s : State} {m : Modulus} {rd ra : DReg}
    (h : modInv (s.readD ra) (s.modulus m) = none) :
    exec (.minv m rd ra) s = .next (s.complete (.error .arithmetic)) := by
  simp only [exec, execMinv, minvResult, h, finish]

/-- Settles O16: the guard of MINV is coprimality of the raw operand, and Euclid's coefficient is the
inverse. -/
theorem minvWritesTheInverse : Obligations.MinvWritesTheInverse := by
  intro s m rd ra hwf
  obtain ⟨M, hmod, hM, _⟩ := exists_word_modulus hwf m
  constructor
  · intro hg
    rw [hmod] at hg ⊢
    obtain ⟨v, hv, hpos, hlt, hinv⟩ := modInv_of_coprime hM hg
    exact ⟨_, v, exec_minv_of_some (hmod ▸ hv), onlyD_complete s rd v, hpos, hlt, hinv⟩
  · intro hbad
    obtain ⟨herr, hdraw⟩ := onlyError_complete s .arithmetic
    exact ⟨_, exec_minv_of_none (modInv_eq_none (by omega) hbad), herr, rfl, hdraw⟩

/-- The curve equation as the truth of an equation of residues (R15). -/
theorem onCurve_eq_decide {c : Curve} (hp : 0 < c.p.toNat) (x y : Word) :
    onCurve c x y = decide ((y.toNat * y.toNat) % c.p.toNat =
      (x.toNat ^ 3 + c.a.toNat * x.toNat + c.b.toNat) % c.p.toNat) := by
  rw [Bool.eq_iff_iff, onCurve_iff_mod hp, decide_eq_true_eq]

/-- Settles O19: PVAL commits FLAG alone, with the curve equation's truth. -/
theorem pvalTestsTheCurveEquation : Obligations.PvalTestsTheCurveEquation := by
  intro s rx ry hwf
  obtain ⟨hp, _⟩ := curveWf_bounds hwf
  rw [← onCurve_eq_decide (by omega)]
  exact ⟨_, rfl, onlyFlag_complete s _⟩

/-! ### What a step answers and what it keeps -/

/-- A command keeps the configuration (R9). -/
theorem exec_cfg {i : Instr} {s t : State} (h : exec i s = .next t) : t.cfg = s.cfg := by
  obtain ⟨s', r, hs, he⟩ := exec_is_completion i s
  obtain rfl : t = s'.complete r := by rw [h] at he; injection he
  rw [(completed_complete s' r).cfg]
  rcases hs with rfl | rfl
  · rfl
  · exact afterDraw_cfg s

/-- A host access keeps the configuration (R9, R38). -/
theorem busAccess_cfg (s : State) (a : Access) : (s.busAccess a).cfg = s.cfg := by
  rcases busAccess_cases s a with ⟨x, e⟩ | e | ⟨_, e⟩ | ⟨b, e⟩ | ⟨v, e⟩ | ⟨_, e⟩ | ⟨_, w, e⟩ |
    ⟨_, i, j, v, e⟩ <;> rw [e] <;> rfl

/-- A step keeps the configuration (R9). -/
theorem step_cfg {s t : State} (h : step s = .next t) : t.cfg = s.cfg := by
  obtain ⟨u, hu, hcases⟩ := step_cases h
  have hkeep : u.cfg = s.cfg := by rw [hu]
  rw [← hkeep]
  rcases hcases with ⟨_, rfl⟩ | ⟨_, i, _, he⟩ | ⟨_, _, rfl⟩ | ⟨a, rfl⟩ | rfl
  · rfl
  · exact exec_cfg he
  · exact endCommand_cfg u 1#4
  · exact busAccess_cfg u a
  · exact resetBlock_cfg u

/-- The ID register reads its constant in every state (R32). -/
theorem windowRead_id (s : State) : s.windowRead 0x000#12 = 0x4D4D0001#32 := rfl

/-- The words of the curve parameter registers are those of the CURVE (R38, R66). -/
theorem windowRead_curveWord (s : State) (k : Fin 6) (j : Fin 8) :
    s.windowRead (BitVec.ofNat 12 (0xC00 + 0x20 * k.val + 4 * j.val)) =
      lane (curveParam s.cfg.curve k) j := by
  rw [State.windowRead, regionOf_curveWord, State.readRegion]

/-- Settles O47: every step keeps the configuration, and the ID and CP words read it alone. -/
theorem configurationNeverChanges : Obligations.ConfigurationNeverChanges := by
  intro s t h
  have hcfg := step_cfg h
  refine ⟨hcfg, windowRead_id t, fun k j => ?_⟩
  rw [windowRead_curveWord, windowRead_curveWord, hcfg]

/-- The engine's turn always answers a next state (R250, R260). -/
theorem engineTurn_next (s : State) : ∃ t, s.engineTurn = .next t := by
  unfold State.engineTurn
  split
  · unfold State.engineStep
    split
    · exact ⟨_, rfl⟩
    · obtain ⟨s', r, _, he⟩ := exec_is_completion _ s
      exact ⟨_, he⟩
  · exact ⟨s, rfl⟩

/-- A step under a well-formed configuration answers a next state. -/
theorem step_next {s : State} (h : configWf s.cfg = true) : ∃ t, step s = .next t := by
  rw [step_of_configWf h]
  split
  · exact engineTurn_next s
  · exact engineTurn_next _
  · exact ⟨_, rfl⟩
  · exact ⟨_, rfl⟩

theorem step_of_not_curveWf {s : State} (h : curveWf s.cfg.curve = false) :
    step s = .refused .curveNotWellFormed := if_pos h

theorem step_of_not_aligned {s : State} (hc : curveWf s.cfg.curve = true)
    (ha : windowBaseAligned s.cfg = false) : step s = .refused .windowBaseUnaligned := by
  rw [step, State.advance, if_neg (by simp [hc]), if_pos ha]

/-- Settles O8: the two tests of the configuration are the only way a step stops. -/
theorem stepStopsOnlyOnIllFormedConfig : Obligations.StepStopsOnlyOnIllFormedConfig :=
  ⟨fun _ => step_next, fun _ => step_of_not_curveWf,
    fun _ hc hb => step_of_not_aligned hc (beq_eq_false_iff_ne.2 hb)⟩

/-! ### Reset -/

theorem pointsValid_reset : State.reset.pointsValid := by
  intro r
  rw [readP_reset, pointValid]

theorem statusConsistent_reset : State.reset.statusConsistent := by decide

/-- The default CURVE satisfies R9's conditions. -/
theorem curveWf_p256 : curveWf p256 = true := by decide

theorem configWf_defaultConfig : configWf defaultConfig = true := by
  rw [configWf, Bool.and_eq_true]
  exact ⟨curveWf_p256, rfl⟩

/-- Settles O46: at reset every point register is INF, no command is in flight, and the configuration
is the default one. -/
theorem invariantsHoldAtReset : Obligations.InvariantsHoldAtReset :=
  ⟨pointsValid_reset, statusConsistent_reset, configWf_defaultConfig⟩

end Sys2Proof.Proofs
end

section
/-! SUPPORT. The result every command completes with, what its commit leaves in the registers, and
the statements on the machine's state (R23 to R40, R45, R64 to R75, R220, R264, R287) settled with
them. -/

namespace Sys2Proof.Proofs

open Sys2Proof.Machine Sys2Proof.Laws

/-! ### What a commit leaves in the registers -/

/-- Sixteen registers after a list of writes to them, the last write to a register deciding. -/
def setRegs {α : Type} (l : List (Fin 16 × α)) (v : Vector α 16) : Vector α 16 :=
  l.foldl (fun t x => t.set x.1 x.2) v

theorem get_set {α : Type} (v : Vector α 16) (r x : Fin 16) (a : α) :
    (v.set r a).get x = if x = r then a else v.get x := by
  simp only [Vector.get_eq_getElem, Vector.getElem_set, Fin.ext_iff, eq_comm]

theorem get_setRegs_of_not_mem {α : Type} {x : Fin 16} :
    ∀ {l : List (Fin 16 × α)} {v : Vector α 16}, x ∉ l.map Prod.fst →
      (setRegs l v).get x = v.get x
  | [], _, _ => rfl
  | y :: l, v, h => by
    rw [List.map_cons, List.mem_cons, not_or] at h
    obtain ⟨hne, hl⟩ := h
    calc (setRegs l (v.set y.1 y.2)).get x = (v.set y.1 y.2).get x := get_setRegs_of_not_mem hl
      _ = v.get x := by rw [get_set, if_neg hne]

/-- What holds of every register and of every written value holds of every register afterwards. -/
theorem forall_setRegs {α : Type} {q : α → Prop} :
    ∀ {l : List (Fin 16 × α)} {v : Vector α 16}, (∀ y ∈ l, q y.2) → (∀ x, q (v.get x)) →
      ∀ x, q ((setRegs l v).get x)
  | [], _, _, hv => hv
  | y :: l, v, hl, hv => by
    obtain ⟨hy, hl⟩ := List.forall_mem_cons.1 hl
    refine forall_setRegs (v := v.set y.1 y.2) hl fun x => ?_
    rw [get_set]
    split
    · exact hy
    · exact hv x

theorem foldl_writeD (l : List (DReg × Word)) (s : State) :
    l.foldl (fun t x => t.writeD x.1 x.2) s = { s with dregs := setRegs l s.dregs } := by
  induction l generalizing s with
  | nil => rfl
  | cons x l ih => exact ih (s.writeD x.1 x.2)

theorem foldl_writeP (l : List (PReg × Point)) (s : State) :
    l.foldl (fun t x => t.writeP x.1 x.2) s = { s with pregs := setRegs l s.pregs } := by
  induction l generalizing s with
  | nil => rfl
  | cons x l ih => exact ih (s.writeP x.1 x.2)

/-- A successful completion: the registers written, FLAG where it is given, and the status (R40,
R259). -/
theorem complete_ok (s : State) (w : Writes) :
    s.complete (.ok w) =
      { s with dregs := setRegs w.dw s.dregs, pregs := setRegs w.pw s.pregs,
               flag := w.flagval.getD s.flag, errcode := 0#4, done := true, busy := false } := by
  simp only [State.complete, State.applyWrites, foldl_writeD, foldl_writeP]
  rfl

/-! ### The result of a command -/

/-- The result of Execute for a command (R40): its error, or the writes it commits. -/
def commandResult (s : State) : Instr → Result
  | .nop => .ok commitNone
  | .madd m rd ra rb => .ok (commitD rd (modAdd (s.readD ra) (s.readD rb) (s.modulus m)))
  | .msub m rd ra rb => .ok (commitD rd (modSub (s.readD ra) (s.readD rb) (s.modulus m)))
  | .mneg m rd ra => .ok (commitD rd (modNeg (s.readD ra) (s.modulus m)))
  | .mred m rd ra => .ok (commitD rd (modRed (s.readD ra) (s.modulus m)))
  | .montmul m rd ra rb => .ok (commitD rd (montMul (s.readD ra) (s.readD rb) (s.modulus m)))
  | .mmul m rd ra rb => .ok (commitD rd (modMul (s.readD ra) (s.readD rb) (s.modulus m)))
  | .tomont m rd ra => .ok (commitD rd (toMont (s.readD ra) (s.modulus m)))
  | .frommont m rd ra => .ok (commitD rd (fromMont (s.readD ra) (s.modulus m)))
  | .minv m rd ra => minvResult rd (s.readD ra) (s.modulus m)
  | .pval rx ry => .ok (commitFlag (flagOnCurve s.cfg.curve (s.readD rx) (s.readD ry)))
  | .pload pd rx ry => ploadResult s.cfg.curve pd (s.readD rx) (s.readD ry)
  | .pinf pd => .ok (commitP pd .inf)
  | .pgen pd => .ok (commitP pd (basePoint s.cfg.curve))
  | .pmov pd ps => .ok (commitP pd (s.readP ps))
  | .pgetx rd ps => pgetxResult rd (s.readP ps)
  | .pgety rd ps => pgetyResult rd (s.readP ps)
  | .pisinf ps => .ok (commitFlag (flagIsInf (s.readP ps)))
  | .peq ps qs => .ok (commitFlag (flagEq (s.readP ps) (s.readP qs)))
  | .pneg pd ps => .ok (commitP pd (ptNeg s.cfg.curve (s.readP ps)))
  | .padd pd ps qs => pointResult pd (ptAdd s.cfg.curve (s.readP ps) (s.readP qs))
  | .pdbl pd ps => pointResult pd (ptDbl s.cfg.curve (s.readP ps))
  | .pmul pd rk ps => pointResult pd (smul s.cfg.curve (s.readD rk) (s.readP ps))
  | .keygen rd pd => keygenResult s.cfg.curve rd pd s.drawn
  | .pubkey pd rk => pointResult pd (smul s.cfg.curve (s.readD rk) (basePoint s.cfg.curve))
  | .sign rs re rk rm =>
    if rs = re then .error .illegal
    else signResult s.cfg.curve rs re (s.readD rk) (s.readD rm) s.drawn
  | .verify pk rm rs re => .ok (commitFlag
      (flagVerify s.cfg.curve (s.readD rm) (s.readP pk) (s.readD rs) (s.readD re)))

/-- The state a command completes in: the draw of KEYGEN and SIGN is used up (R221). -/
def drawState (s : State) (i : Instr) : State := if makesDraw i then s.afterDraw else s

/-- Every command is the completion with its result. -/
theorem exec_eq_complete (i : Instr) (s : State) :
    exec i s = .next ((drawState s i).complete (commandResult s i)) := by
  cases i
  case sign rs re rk rm =>
    by_cases h : rs = re <;> simp [exec, execSign, finish, drawState, makesDraw, commandResult, h]
  all_goals rfl

theorem eq_complete_of_exec {i : Instr} {s t : State} (h : exec i s = .next t) :
    t = (drawState s i).complete (commandResult s i) := by
  rw [exec_eq_complete] at h
  injection h with h
  exact h.symm

/-- A command succeeds and commits its writes, or fails and leaves all but the status (R259). -/
theorem exec_cases {i : Instr} {s t : State} (h : exec i s = .next t) :
    (∃ w, commandResult s i = .ok w ∧ t = (drawState s i).complete (.ok w)) ∨
    (∃ e, commandResult s i = .error e ∧ t = (drawState s i).endCommand e.code) := by
  have ht := eq_complete_of_exec h
  rcases hr : commandResult s i with e | w <;> rw [hr] at ht
  · exact .inr ⟨e, rfl, ht⟩
  · exact .inl ⟨w, rfl, ht⟩

/-- A completion after the draw of KEYGEN or SIGN is a completion of the state before it. -/
theorem completed_drawState {s t : State} {i : Instr} {c : BitVec 4}
    (h : Completed (drawState s i) t c) : Completed s t c := by
  rw [drawState] at h
  split at h
  · exact ⟨h.errcode, h.done, h.busy, h.werr, h.ie, h.cmdlast, h.cur, h.cfg, h.events, h.responses⟩
  · exact h

/-- Every command completes (R40, R259). -/
theorem completed_of_exec {i : Instr} {s t : State} (h : exec i s = .next t) :
    Completed s t t.errcode := by
  have hc := completed_complete (drawState s i) (commandResult s i)
  rw [← eq_complete_of_exec h] at hc
  rw [hc.errcode]
  exact completed_drawState hc

@[simp] theorem drawState_dregs (s : State) (i : Instr) : (drawState s i).dregs = s.dregs := by
  rw [drawState]; split <;> rfl

@[simp] theorem drawState_pregs (s : State) (i : Instr) : (drawState s i).pregs = s.pregs := by
  rw [drawState]; split <;> rfl

@[simp] theorem drawState_flag (s : State) (i : Instr) : (drawState s i).flag = s.flag := by
  rw [drawState]; split <;> rfl

/-! What each command's result can be, where it succeeds. -/

theorem minvResult_ok {rd : DReg} {a : Word} {m : Nat} {w : Writes}
    (h : minvResult rd a m = .ok w) : ∃ v, w = commitD rd v := by
  unfold minvResult at h
  split at h <;> cases h
  exact ⟨_, rfl⟩

theorem pgetxResult_ok {rd : DReg} {P : Point} {w : Writes} (h : pgetxResult rd P = .ok w) :
    ∃ v, w = commitD rd v := by
  cases P <;> cases h
  exact ⟨_, rfl⟩

theorem pgetyResult_ok {rd : DReg} {P : Point} {w : Writes} (h : pgetyResult rd P = .ok w) :
    ∃ v, w = commitD rd v := by
  cases P <;> cases h
  exact ⟨_, rfl⟩

theorem ploadResult_ok {c : Curve} {pd : PReg} {x y : Word} {w : Writes}
    (h : ploadResult c pd x y = .ok w) : onCurve c x y = true ∧
      w = commitP pd (.aff (modRed x c.p.toNat) (modRed y c.p.toNat)) := by
  unfold ploadResult at h
  split at h <;> cases h
  exact ⟨‹_›, rfl⟩

theorem pointResult_ok {pd : PReg} {r : Except CmdError Point} {w : Writes}
    (h : pointResult pd r = .ok w) : ∃ P, r = .ok P ∧ w = commitP pd P := by
  cases r <;> cases h
  exact ⟨_, rfl, rfl⟩

theorem keygenResult_ok {c : Curve} {rd : DReg} {pd : PReg} {k : Word} {w : Writes}
    (h : keygenResult c rd pd k = .ok w) :
    ∃ K, smul c k (basePoint c) = .ok K ∧ w = ⟨[(rd, k)], [(pd, K)], none⟩ := by
  unfold keygenResult at h
  split at h
  · cases h
  split at h <;> cases h
  exact ⟨_, ‹_›, rfl⟩

theorem signResult_ok {c : Curve} {rs re : DReg} {k m r : Word} {w : Writes}
    (h : signResult c rs re k m r = .ok w) : ∃ u v, w = ⟨[(rs, u), (re, v)], [], none⟩ := by
  unfold signResult at h
  split at h
  · cases h
  split at h <;> cases h
  exact ⟨_, _, rfl⟩

/-- A successful command writes the registers its fields name, and FLAG where R29 says so. -/
theorem commandResult_targets {s : State} {i : Instr} {w : Writes} (h : commandResult s i = .ok w) :
    w.dw.map Prod.fst = writtenD i ∧ w.pw.map Prod.fst = writtenP i ∧
      w.flagval.isSome = writesFlag i := by
  cases i
  case minv => obtain ⟨_, rfl⟩ := minvResult_ok h; exact ⟨rfl, rfl, rfl⟩
  case pgetx => obtain ⟨_, rfl⟩ := pgetxResult_ok h; exact ⟨rfl, rfl, rfl⟩
  case pgety => obtain ⟨_, rfl⟩ := pgetyResult_ok h; exact ⟨rfl, rfl, rfl⟩
  case pload => obtain ⟨_, rfl⟩ := ploadResult_ok h; exact ⟨rfl, rfl, rfl⟩
  case padd => obtain ⟨_, _, rfl⟩ := pointResult_ok h; exact ⟨rfl, rfl, rfl⟩
  case pdbl => obtain ⟨_, _, rfl⟩ := pointResult_ok h; exact ⟨rfl, rfl, rfl⟩
  case pmul => obtain ⟨_, _, rfl⟩ := pointResult_ok h; exact ⟨rfl, rfl, rfl⟩
  case pubkey => obtain ⟨_, _, rfl⟩ := pointResult_ok h; exact ⟨rfl, rfl, rfl⟩
  case keygen => obtain ⟨_, _, rfl⟩ := keygenResult_ok h; exact ⟨rfl, rfl, rfl⟩
  case sign =>
    rw [commandResult] at h
    split at h
    · cases h
    · obtain ⟨_, _, rfl⟩ := signResult_ok h; exact ⟨rfl, rfl, rfl⟩
  all_goals cases h; exact ⟨rfl, rfl, rfl⟩

/-! ### The group law keeps points valid (R25, R161, R180) -/

/-- The sum of two points of the curve is on the curve, singular or not, by the formulas of R174 and
R176. -/
theorem equation_of_slope {c : Curve} [Fact (Nat.Prime c.p.toNat)]
    {x1 y1 x2 y2 x3 y3 lam : ZMod c.p.toNat} (h1 : (weierstrass c).Equation x1 y1)
    (h2 : (weierstrass c).Equation x2 y2) (hne : ¬ (x1 = x2 ∧ y1 = - y2))
    (hs : (weierstrass c).slope x1 x2 y1 y2 = lam) (e1 : x3 = lam ^ 2 - x1 - x2)
    (e2 : y3 = lam * (x1 - x3) - y1) : (weierstrass c).Equation x3 y3 := by
  obtain ⟨rx, ry⟩ := sum_coordinates hs e1 e2
  rw [rx, ry]
  exact WeierstrassCurve.Affine.equation_add h1 h2 (by rwa [weierstrass_negY])

section
variable {c : Curve} (hp : Nat.Prime c.p.toNat)
include hp

theorem ptDbl_valid {P R : Point} (hP : pointValid c P = true) (h : ptDbl c P = .ok R) :
    pointValid c R = true := by
  have := Fact.mk hp
  rcases P with _ | ⟨x, y⟩
  · cases h; exact hP
  · obtain ⟨_, _, heq⟩ := (pointValid_aff hp.pos x y).1 hP
    rcases ptDbl_aff hp x y with ⟨_, he⟩ | ⟨h0, x3, y3, he, hx3, hy3, lam, hl, e1, e2⟩ <;>
      rw [he] at h <;> cases h
    have hne : ¬ (elt c x = elt c x ∧ elt c y = - elt c y) :=
      fun hh => h0 (by linear_combination hh.2)
    exact (pointValid_aff hp.pos x3 y3).2
      ⟨hx3, hy3, equation_of_slope heq heq hne (tangent_slope h0 hl) e1 e2⟩

theorem ptAdd_valid {P Q R : Point} (hP : pointValid c P = true) (hQ : pointValid c Q = true)
    (h : ptAdd c P Q = .ok R) : pointValid c R = true := by
  have := Fact.mk hp
  rcases P with _ | ⟨x1, y1⟩
  · cases h; exact hQ
  rcases Q with _ | ⟨x2, y2⟩
  · cases h; exact hP
  obtain ⟨hx1, hy1, h1⟩ := (pointValid_aff hp.pos x1 y1).1 hP
  obtain ⟨hx2, hy2, h2⟩ := (pointValid_aff hp.pos x2 y2).1 hQ
  rcases ptAdd_aff hp hx1 hy1 hx2 hy2 with ⟨_, _, he⟩ | ⟨_, _, _, _, he⟩ | ⟨_, _, _, he⟩ |
    ⟨hx, x3, y3, he, hx3, hy3, lam, hl, e1, e2⟩ <;> rw [he] at h
  · cases h; rfl
  · exact ptDbl_valid hp hP h
  · cases h
  · cases h
    exact (pointValid_aff hp.pos x3 y3).2
      ⟨hx3, hy3, equation_of_slope h1 h2 (fun hh => hx hh.1) (chord_slope hx hl) e1 e2⟩

theorem smulLoop_valid {k : Word} {P R : Point} (hP : pointValid c P = true) :
    ∀ (i : Nat) (Q : Point), pointValid c Q = true → smulLoop c k P i Q = .ok R →
      pointValid c R = true := by
  intro i
  induction i with
  | zero => intro Q hQ h; cases h; exact hQ
  | succ i ih =>
    intro Q hQ h
    rw [smulLoop] at h
    rcases h2 : ptDbl c Q with e | Q2 <;> rw [h2] at h
    · cases h
    have hQ2 := ptDbl_valid hp hQ h2
    simp only [] at h
    split at h
    · rcases h3 : ptAdd c Q2 P with e | Q3 <;> rw [h3] at h
      · cases h
      exact ih Q3 (ptAdd_valid hp hQ2 hP h3) h
    · exact ih Q2 hQ2 h

theorem smul_valid {k : Word} {P R : Point} (hP : pointValid c P = true)
    (h : smul c k P = .ok R) : pointValid c R = true :=
  smulLoop_valid hp hP 256 .inf rfl h

omit hp in
theorem ptNeg_valid (hp0 : 0 < c.p.toNat) {P : Point} (hP : pointValid c P = true) :
    pointValid c (ptNeg c P) = true := by
  rcases P with _ | ⟨x, y⟩
  · exact hP
  · obtain ⟨hx, _, heq⟩ := (pointValid_aff hp0 x y).1 hP
    have hlt : (modNeg y c.p.toNat).toNat < c.p.toNat := by
      rw [modNeg, toWord_modulo_toNat _ hp0]; exact modulo_lt _ hp0
    have hneg : elt c (modNeg y c.p.toNat) = - elt c y := by
      rw [modNeg, elt_toWord_modulo hp0]; push_cast; ring
    refine (pointValid_aff hp0 x _).2 ⟨hx, hlt, ?_⟩
    rw [weierstrass_equation] at heq ⊢
    rw [hneg, neg_sq, heq]

omit hp in
/-- Reduced coordinates satisfy the curve equation where the raw ones do (R163). -/
theorem modRed_valid (hp0 : 0 < c.p.toNat) {x y : Word} (h : onCurve c x y = true) :
    pointValid c (.aff (modRed x c.p.toNat) (modRed y c.p.toNat)) = true := by
  have hlt (v : Word) : (modRed v c.p.toNat).toNat < c.p.toNat := by
    rw [modRed_toNat v hp0]; exact Nat.mod_lt _ hp0
  have helt (v : Word) : elt c (modRed v c.p.toNat) = elt c v := by
    rw [modRed, elt_toWord_modulo hp0, Int.cast_natCast]
  refine (pointValid_aff hp0 _ _).2 ⟨hlt x, hlt y, ?_⟩
  rw [helt, helt, weierstrass_equation]
  exact (onCurve_iff_eq hp0 x y).1 h

end

/-- Every point a command commits is valid where the point registers were (R25, R161). -/
theorem commandResult_points_valid {s : State} (hp : Nat.Prime s.cfg.curve.p.toNat)
    (hwf : curveWf s.cfg.curve = true) (hv : s.pointsValid) {i : Instr} {w : Writes}
    (h : commandResult s i = .ok w) : ∀ y ∈ w.pw, pointValid s.cfg.curve y.2 = true := by
  have hG := basePoint_valid hwf
  have one {pd : PReg} {P : Point} (hP : pointValid s.cfg.curve P = true) :
      ∀ y ∈ (commitP pd P).pw, pointValid s.cfg.curve y.2 = true :=
    List.forall_mem_singleton.2 hP
  have noPoint (hw : writtenP i = []) : ∀ y ∈ w.pw, pointValid s.cfg.curve y.2 = true := by
    obtain ⟨_, hpw, _⟩ := commandResult_targets h
    rw [hw, List.map_eq_nil_iff] at hpw
    simp [hpw]
  cases i
  case pload =>
    obtain ⟨hon, rfl⟩ := ploadResult_ok h
    exact one (modRed_valid hp.pos hon)
  case pinf => cases h; exact one rfl
  case pgen => cases h; exact one hG
  case pmov pd ps => cases h; exact one (hv ps)
  case pneg pd ps => cases h; exact one (ptNeg_valid hp.pos (hv ps))
  case padd pd ps qs =>
    obtain ⟨P, hP, rfl⟩ := pointResult_ok h
    exact one (ptAdd_valid hp (hv ps) (hv qs) hP)
  case pdbl pd ps =>
    obtain ⟨P, hP, rfl⟩ := pointResult_ok h
    exact one (ptDbl_valid hp (hv ps) hP)
  case pmul pd rk ps =>
    obtain ⟨P, hP, rfl⟩ := pointResult_ok h
    exact one (smul_valid hp (hv ps) hP)
  case pubkey =>
    obtain ⟨P, hP, rfl⟩ := pointResult_ok h
    exact one (smul_valid hp hG hP)
  case keygen =>
    obtain ⟨K, hK, rfl⟩ := keygenResult_ok h
    exact List.forall_mem_singleton.2 (smul_valid hp hG hK)
  all_goals exact noPoint rfl

/-- A command keeps the point registers valid. -/
theorem exec_pointsValid {i : Instr} {s t : State} (hp : Nat.Prime s.cfg.curve.p.toNat)
    (hwf : curveWf s.cfg.curve = true) (hv : s.pointsValid) (h : exec i s = .next t) :
    t.pointsValid := by
  intro r
  rw [exec_cfg h]
  rcases exec_cases h with ⟨w, hr, rfl⟩ | ⟨e, _, rfl⟩
  · rw [State.readP, complete_ok, drawState_pregs]
    exact forall_setRegs (q := fun P => pointValid s.cfg.curve P = true)
      (commandResult_points_valid hp hwf hv hr) hv r
  · rw [State.readP, endCommand_pregs, drawState_pregs]
    exact hv r

/-- A reset leaves INF in every point register. -/
theorem resetBlock_pointsValid (s : State) : s.resetBlock.pointsValid := by
  intro r
  rw [State.readP, resetBlock_pregs, ← State.readP, readP_reset]
  rfl

/-- A host access writes no point register but by a reset (R71, R281). -/
theorem busAccess_pointsValid {s : State} (hv : s.pointsValid) (a : Access) :
    (s.busAccess a).pointsValid := by
  rcases busAccess_cases s a with ⟨x, e⟩ | e | ⟨_, e⟩ | ⟨b, e⟩ | ⟨v, e⟩ | ⟨_, e⟩ | ⟨_, w, e⟩ |
    ⟨_, i, j, v, e⟩ <;> rw [e]
  case inr.inr.inl => exact resetBlock_pointsValid s
  all_goals exact hv

/-- Settles O44: the points a command commits are valid by the group law over a prime p, and nothing
else but a reset writes a point register. -/
theorem pointRegistersStayValid : Obligations.PointRegistersStayValid := by
  intro s t hp hv h
  obtain ⟨hwf, _⟩ := Bool.and_eq_true_iff.1 (configWf_of_step h)
  obtain ⟨u, hu, hcases⟩ := step_cases h
  have huv : u.pointsValid := by rw [hu]; exact hv
  have hcfg : u.cfg = s.cfg := by rw [hu]
  rw [← hcfg] at hp hwf
  rcases hcases with ⟨_, rfl⟩ | ⟨_, i, _, he⟩ | ⟨_, _, rfl⟩ | ⟨a, rfl⟩ | rfl
  · exact huv
  · exact exec_pointsValid hp hwf huv he
  · exact huv
  · exact busAccess_pointsValid huv a
  · exact resetBlock_pointsValid u

/-! ### The status bits -/

theorem errorCode_le (e : CmdError) : e.code.toNat ≤ 5 := by cases e <;> decide

/-- With no command in flight the status bits are consistent as soon as ERRCODE is not reserved. -/
theorem statusConsistent_of_idle {s : State} (hb : s.busy = false) (he : s.errcode.toNat ≤ 5) :
    s.statusConsistent :=
  ⟨fun h => absurd (hb.symm.trans h) Bool.false_ne_true, he⟩

theorem errcode_le_of_exec {i : Instr} {s t : State} (h : exec i s = .next t) :
    t.errcode.toNat ≤ 5 := by
  rcases exec_cases h with ⟨w, _, rfl⟩ | ⟨e, _, rfl⟩
  · rw [complete_ok]; exact Nat.zero_le 5
  · exact errorCode_le e

/-- After a command the status bits are consistent, whatever they were (R250, R259). -/
theorem exec_statusConsistent {i : Instr} {s t : State} (h : exec i s = .next t) :
    t.statusConsistent :=
  statusConsistent_of_idle (completed_of_exec h).busy (errcode_le_of_exec h)

/-- A host access keeps the status bits consistent (R31, R37, R281). -/
theorem busAccess_statusConsistent {s : State} (hs : s.statusConsistent) (a : Access) :
    (s.busAccess a).statusConsistent := by
  rcases busAccess_cases s a with ⟨x, e⟩ | e | ⟨_, e⟩ | ⟨b, e⟩ | ⟨v, e⟩ | ⟨_, e⟩ | ⟨_, w, e⟩ |
    ⟨_, i, j, v, e⟩ <;> rw [e]
  case inr.inr.inl => exact statusConsistent_of_idle rfl (Nat.zero_le 5)
  case inr.inr.inr.inr.inl =>
    refine ⟨fun hb => ?_, hs.2⟩
    obtain ⟨hdone, hrest⟩ := hs.1 hb
    exact ⟨by rw [writeStatus_done, hdone, Bool.false_and], hrest⟩
  case inr.inr.inr.inr.inr.inr.inl => exact ⟨fun _ => ⟨rfl, rfl, rfl⟩, Nat.zero_le 5⟩
  all_goals exact hs

/-- Settles O45: a completion ends with BUSY = 0 and a code of R250, an issue starts with DONE and
ERRCODE 0, and no other access sets one of the bits. -/
theorem statusStaysConsistent : Obligations.StatusStaysConsistent := by
  intro s t hs h
  obtain ⟨u, hu, hcases⟩ := step_cases h
  have hus : u.statusConsistent := by rw [hu]; exact hs
  rcases hcases with ⟨_, rfl⟩ | ⟨_, i, _, he⟩ | ⟨_, _, rfl⟩ | ⟨a, rfl⟩ | rfl
  · exact hus
  · exact exec_statusConsistent he
  · exact statusConsistent_of_idle rfl (errorCode_le .illegal)
  · exact busAccess_statusConsistent hus a
  · exact statusConsistent_of_idle rfl (Nat.zero_le 5)

/-! ### KEYGEN -/

/-- KEYGEN uses up one answer of the port and completes with its result (R220). -/
theorem exec_keygen_of_result {s : State} {rd : DReg} {pd : PReg} {r : Result}
    (h : keygenResult s.cfg.curve rd pd s.drawn = r) :
    exec (.keygen rd pd) s = .next (s.afterDraw.complete r) := by
  rw [← h]; rfl

/-- The one error of smul (R200). -/
theorem smul_error {c : Curve} {k : Word} {P : Point} {e : CmdError} (h : smul c k P = .error e) :
    e = .arithmetic := smulLoop_error 256 .inf h

theorem keygenResult_of_le {c : Curve} {k : Word} (rd : DReg) (pd : PReg)
    (h : c.n.toNat ≤ k.toNat) : keygenResult c rd pd k = .error .rng := if_pos h

theorem keygenResult_of_smul {c : Curve} {k : Word} {K : Point} (rd : DReg) (pd : PReg)
    (hk : k.toNat < c.n.toNat) (h : smul c k (basePoint c) = .ok K) :
    keygenResult c rd pd k = .ok ⟨[(rd, k)], [(pd, K)], none⟩ := by
  rw [keygenResult, if_neg (by omega), h]

theorem keygenResult_of_smul_error {c : Curve} {k : Word} {e : CmdError} (rd : DReg) (pd : PReg)
    (hk : k.toNat < c.n.toNat) (h : smul c k (basePoint c) = .error e) :
    keygenResult c rd pd k = .error .arithmetic := by
  rw [keygenResult, if_neg (by omega), h, smul_error h]

/-- A failure after a draw: the status of the completion, and the answer used up. -/
theorem onlyError_afterDraw (s : State) (e : CmdError) :
    OnlyError s (s.afterDraw.complete (.error e)) e ∧
      OneDraw s (s.afterDraw.complete (.error e)) :=
  ⟨⟨⟨rfl, rfl, rfl, rfl, rfl, rfl, rfl, rfl, rfl, rfl⟩, fun _ => rfl, fun _ => rfl, rfl⟩, rfl, rfl⟩

/-- Settles O35: the three outcomes of KEYGEN's result. -/
theorem keygenWritesTheKeyPair : Obligations.KeygenWritesTheKeyPair := by
  intro s rd pd
  refine ⟨fun k rest h => by rw [State.drawn, h], fun K hk hK => ?_, fun e hk he => ?_,
    fun hn => ?_⟩
  · refine ⟨_, exec_keygen_of_result (keygenResult_of_smul rd pd hk hK), ?_⟩
    rw [complete_ok]
    refine ⟨⟨rfl, rfl, rfl, rfl, rfl, rfl, rfl, rfl, rfl, rfl⟩, ⟨?_, fun r hr => ?_⟩,
      ⟨?_, fun r hr => ?_⟩, rfl, rfl, rfl⟩
    · exact (get_set _ rd rd _).trans (if_pos rfl)
    · exact (get_set _ rd r _).trans (if_neg hr)
    · exact (get_set _ pd pd _).trans (if_pos rfl)
    · exact (get_set _ pd r _).trans (if_neg hr)
  · obtain ⟨herr, hdraw⟩ := onlyError_afterDraw s .arithmetic
    exact ⟨_, exec_keygen_of_result (keygenResult_of_smul_error rd pd hk he), herr, rfl, hdraw⟩
  · obtain ⟨herr, hdraw⟩ := onlyError_afterDraw s .rng
    exact ⟨_, exec_keygen_of_result (keygenResult_of_le rd pd hn), herr, rfl, hdraw⟩

/-! ### What a command does not read -/

/-- The four boolean commands always succeed, with FLAG alone to commit (R29). -/
theorem commandResult_of_writesFlag {i : Instr} (h : writesFlag i = true) (s : State) :
    ∃ b, commandResult s i = .ok (commitFlag b) := by
  cases i
  case pval => exact ⟨_, rfl⟩
  case pisinf => exact ⟨_, rfl⟩
  case peq => exact ⟨_, rfl⟩
  case verify => exact ⟨_, rfl⟩
  all_goals cases h

/-- The state with other values in the fields that no command reads: FLAG, DONE, WERR and IE, the
events still to come and the host's responses. -/
def withUnread (s : State) (flag done werr ie : Bool) (events : List Event)
    (responses : List Response) : State :=
  { s with flag := flag, done := done, werr := werr, ie := ie, events := events,
           responses := responses }

section
variable (s : State) (flag done werr ie : Bool) (events : List Event) (responses : List Response)

/-- A command's result does not depend on the fields it does not read (R29, R40). -/
theorem commandResult_withUnread (i : Instr) :
    commandResult (withUnread s flag done werr ie events responses) i = commandResult s i := by
  cases i <;> rfl

theorem drawState_withUnread (i : Instr) :
    drawState (withUnread s flag done werr ie events responses) i =
      withUnread (drawState s i) flag done werr ie events responses := by
  unfold drawState; split <;> rfl

/-- Where a command answers t, it answers t from a state that differs in the fields it does not
read, but for the values these had there; FLAG is that of t where it was the same or the command
writes it. -/
theorem exec_withUnread {i : Instr} {t : State} (h : exec i s = .next t) :
    ∃ flag', exec i (withUnread s flag done werr ie events responses) =
        .next (withUnread t flag' true werr ie events responses) ∧
      (flag = s.flag ∨ writesFlag i = true → flag' = t.flag) := by
  rw [exec_eq_complete, commandResult_withUnread, drawState_withUnread]
  rcases exec_cases h with ⟨w, hr, rfl⟩ | ⟨e, hr, rfl⟩ <;> rw [hr]
  · rw [complete_ok, complete_ok]
    refine ⟨w.flagval.getD flag, rfl, ?_⟩
    rintro (rfl | hw)
    · rw [drawState_flag]
    · obtain ⟨b, hb⟩ := commandResult_of_writesFlag hw s
      cases hr.symm.trans hb
      rfl
  · refine ⟨flag, rfl, ?_⟩
    rintro (rfl | hw)
    · exact (drawState_flag s i).symm
    · obtain ⟨b, hb⟩ := commandResult_of_writesFlag hw s
      cases hr.symm.trans hb

end

/-! ### FLAG -/

/-- A command that changes FLAG is one of the four and succeeded (R29). -/
theorem writesFlag_of_exec_flag_ne {i : Instr} {s t : State} (h : exec i s = .next t)
    (hne : t.flag ≠ s.flag) : writesFlag i = true ∧ t.errcode = 0#4 := by
  rcases exec_cases h with ⟨w, hr, rfl⟩ | ⟨e, _, rfl⟩
  · obtain ⟨_, _, hf⟩ := commandResult_targets hr
    rw [complete_ok] at hne ⊢
    refine ⟨?_, rfl⟩
    rw [← hf, Option.isSome_iff_ne_none]
    intro hnone
    simp [hnone] at hne
  · exact absurd (drawState_flag s i) hne

theorem windowWrite_cmd (s : State) (w : BusWord) : s.windowWrite 0x00C#12 w = s.writeCmd w := rfl

/-- Settles O42: by what a command commits and by what it does not read. -/
theorem flagRules : Obligations.FlagRules := by
  refine ⟨fun i s t => writesFlag_of_exec_flag_ne, fun s w => ?_, fun i s t b h => ?_, rfl⟩
  · rw [windowWrite_cmd, State.writeCmd]
    split
    · exact dropWrite_flag s
    · exact issue_flag s w
  · obtain ⟨flag', hu, hflag⟩ := exec_withUnread s b s.done s.werr s.ie s.events s.responses h
    exact ⟨_, hu, rfl, rfl, rfl, fun hw => hflag (.inr hw)⟩

/-! ### What a command leaves unchanged -/

/-- The offset of a word of the window (R66, R69); a reserved word has no one offset. -/
def regionOffset : Region → Nat
  | .id => 0x000
  | .ctrl => 0x004
  | .status => 0x008
  | .cmd => 0x00C
  | .dword i j => 0x100 + 0x20 * i.val + 4 * j.val
  | .pointX i j => 0x400 + 0x80 * i.val + 4 * j.val
  | .pointY i j => 0x420 + 0x80 * i.val + 4 * j.val
  | .pointInf i => 0x440 + 0x80 * i.val
  | .curveWord k j => 0xC00 + 0x20 * k.val + 4 * j.val
  | .reserved => 0

theorem toNat_eq_regionOffset_point {i : PReg} {d : Nat} {g : Region} (h : d % 4 = 0)
    (hg : pointRegion i d = g) (hr : g ≠ .reserved) :
    0x400 + 0x80 * i.val + d = regionOffset g := by
  rw [pointRegion] at hg
  split_ifs at hg <;> subst hg
  case neg => exact absurd rfl hr
  all_goals simp only [regionOffset, laneAt_val]; omega

/-- An aligned offset that is not reserved is the offset of the word it names (R66). -/
theorem toNat_eq_regionOffset {off : Offset} {g : Region} (h : off.toNat % 4 = 0)
    (hg : regionOf off = g) (hr : g ≠ .reserved) : off.toNat = regionOffset g := by
  simp only [regionOf] at hg
  generalize off.toNat = n at *
  split_ifs at hg
  · subst hg; assumption
  · subst hg; assumption
  · subst hg; assumption
  · subst hg; assumption
  · exact absurd hg.symm hr
  · subst hg; simp only [regionOffset, laneAt_val, Fin.ofNat]; omega
  · exact absurd hg.symm hr
  · rw [← toNat_eq_regionOffset_point (by omega) hg hr]; simp only [Fin.ofNat]; omega
  · subst hg; simp only [regionOffset, laneAt_val, Fin.ofNat]; omega
  · exact absurd hg.symm hr

/-- After a completion an aligned word outside the register blocks, STATUS excepted, reads as
before. -/
theorem windowRead_of_completed {s t : State} {c : BitVec 4} (h : Completed s t c) {off : Offset}
    (h4 : off.toNat % 4 = 0) (h8 : off ≠ 0x008#12)
    (hoff : off.toNat < 0x100 ∨ 0xC00 ≤ off.toNat) : t.windowRead off = s.windowRead off := by
  have hn : off.toNat ≠ 8 := fun e => h8 (BitVec.eq_of_toNat_eq e)
  have hmap := toNat_eq_regionOffset h4 rfl
  unfold State.windowRead
  generalize regionOf off = g at *
  cases g <;> simp only [regionOffset, ne_eq, reduceCtorEq, not_false_eq_true, forall_const] at hmap
  case id => rfl
  case ctrl => simp only [State.readRegion, State.ctrlWord, h.ie]
  case cmd => exact h.cmdlast
  case curveWord => simp only [State.readRegion, h.cfg]
  case reserved => rfl
  all_goals omega

theorem exec_noDraw_or_oneDraw {i : Instr} {s t : State} (h : exec i s = .next t) :
    if makesDraw i = true then OneDraw s t else NoDraw s t := by
  obtain ⟨u, hu, hdraws⟩ : ∃ u, drawState s i = u ∧ t.entropy = u.entropy ∧ t.draws = u.draws := by
    refine ⟨_, rfl, ?_⟩
    rcases exec_cases h with ⟨w, _, rfl⟩ | ⟨e, _, rfl⟩
    · rw [complete_ok]; exact ⟨rfl, rfl⟩
    · exact ⟨rfl, rfl⟩
  rw [drawState] at hu
  split at hu <;> subst hu
  · rw [if_pos ‹_›]; exact hdraws
  · rw [if_neg ‹_›]; exact hdraws

/-- A command changes no data register but those its fields name (R23). -/
theorem readD_of_exec {i : Instr} {s t : State} (h : exec i s = .next t) {r : DReg}
    (hr : r ∉ writtenD i) : t.readD r = s.readD r := by
  rcases exec_cases h with ⟨w, hw, rfl⟩ | ⟨e, _, rfl⟩
  · obtain ⟨hd, _, _⟩ := commandResult_targets hw
    rw [complete_ok, State.readD, drawState_dregs]
    exact get_setRegs_of_not_mem (hd ▸ hr)
  · rw [State.readD, endCommand_dregs, drawState_dregs]; rfl

/-- A command changes no point register but the one its fields name (R26). -/
theorem readP_of_exec {i : Instr} {s t : State} (h : exec i s = .next t) {r : PReg}
    (hr : r ∉ writtenP i) : t.readP r = s.readP r := by
  rcases exec_cases h with ⟨w, hw, rfl⟩ | ⟨e, _, rfl⟩
  · obtain ⟨_, hp, _⟩ := commandResult_targets hw
    rw [complete_ok, State.readP, drawState_pregs]
    exact get_setRegs_of_not_mem (hp ▸ hr)
  · rw [State.readP, endCommand_pregs, drawState_pregs]; rfl

/-- Settles O43: from the registers a command's writes name and the fields a completion keeps. -/
theorem onlyDestinationsAreWritten : Obligations.OnlyDestinationsAreWritten := fun _ _ _ h =>
  ⟨fun _ => readD_of_exec h, fun _ => readP_of_exec h, exec_noDraw_or_oneDraw h,
    fun _ h4 h8 hoff => windowRead_of_completed (completed_of_exec h) h4 h8 hoff⟩

/-! ### A command in flight -/

/-- A host access other than a soft reset leaves a command in flight all that it reads: only WERR, IE,
DONE and the host's responses can change (R75, R80). -/
theorem busAccess_inFlight {s : State} {a : Access} (hb : s.busy = true)
    (ha : isSoftReset s.cfg a = false) :
    ∃ done werr ie responses,
      s.busAccess a = withUnread s s.flag done werr ie s.events responses := by
  rcases busAccess_cases s a with ⟨x, e⟩ | e | ⟨hr, _⟩ | ⟨b, e⟩ | ⟨v, e⟩ | ⟨_, e⟩ | ⟨hi, _⟩ |
    ⟨hi, _⟩
  · exact ⟨_, _, _, _, e⟩
  · exact ⟨_, _, _, _, e⟩
  · rw [ha] at hr; cases hr
  · exact ⟨_, _, _, _, e⟩
  · exact ⟨_, _, _, _, e⟩
  · exact ⟨_, _, _, _, e⟩
  · rw [hb] at hi; cases hi
  · rw [hb] at hi; cases hi

/-- Settles O48: a host access while a command is in flight only touches what no command reads. -/
theorem commandInFlightIsUndisturbed : Obligations.CommandInFlightIsUndisturbed := by
  intro s a hb ha
  obtain ⟨done, werr, ie, responses, e⟩ := busAccess_inFlight hb ha
  rw [e]
  exact ⟨rfl, rfl, fun _ => rfl, fun _ => rfl, rfl, rfl, hb, rfl, rfl⟩

/-- The step that takes such an access. -/
theorem step_access_inFlight {s : State} {a : Access} {rest : List Event}
    (hcfg : configWf s.cfg = true) (hb : s.busy = true) (ha : isSoftReset s.cfg a = false)
    (hev : s.events = .bus a :: rest) :
    ∃ done werr ie responses,
      step s = .next (withUnread s s.flag done werr ie rest responses) := by
  obtain ⟨done, werr, ie, responses, e⟩ :=
    busAccess_inFlight (s := { s with events := rest }) hb ha
  refine ⟨done, werr, ie, responses, ?_⟩
  rw [step_of_configWf hcfg, hev]
  exact congrArg Host.Outcome.next e

/-- Host accesses other than a soft reset bring a command in flight to the same state, but for the
fields no command reads. -/
theorem run_accesses {s : State} {accs : List Access} {rest : List Event}
    (hcfg : configWf s.cfg = true) (hb : s.busy = true)
    (ha : ∀ a ∈ accs, isSoftReset s.cfg a = false)
    (hev : s.events = accs.map .bus ++ rest) (k : Nat) :
    ∃ done werr ie responses, core.run (accs.length + k) s =
      core.run k (withUnread s s.flag done werr ie rest responses) := by
  induction accs generalizing s with
  | nil =>
    refine ⟨s.done, s.werr, s.ie, s.responses, ?_⟩
    have hs : s = withUnread s s.flag s.done s.werr s.ie rest s.responses := by
      rw [withUnread, ← show s.events = rest from hev]
    rw [List.length_nil, Nat.zero_add]
    exact congrArg (core.run k) hs
  | cons a accs ih =>
    obtain ⟨hreset, ha⟩ := List.forall_mem_cons.1 ha
    obtain ⟨done, werr, ie, responses, hstep⟩ := step_access_inFlight hcfg hb hreset hev
    obtain ⟨done', werr', ie', responses', hrun⟩ :=
      ih (s := withUnread s s.flag done werr ie (accs.map .bus ++ rest) responses) hcfg hb ha rfl
    refine ⟨done', werr', ie', responses', ?_⟩
    rw [List.length_cons, Nat.add_right_comm, run_succ hstep]
    exact hrun

/-! ### The engine's turn -/

/-- With a word that decodes in flight, the engine's turn runs the command (R40). -/
theorem engineTurn_of_decode {s : State} {i : Instr} (hb : s.busy = true)
    (hd : decode s.cur = .ok i) : s.engineTurn = exec i s := by
  rw [State.engineTurn, if_pos hb, State.engineStep, hd]

/-- With another word in flight, the engine's turn completes it with code 1 (R98, R251). -/
theorem engineTurn_of_decode_error {s : State} {e : DecodeError} (hb : s.busy = true)
    (hd : decode s.cur = .error e) : s.engineTurn = .next (s.endCommand 1#4) := by
  rw [State.engineTurn, if_pos hb, State.engineStep, hd]
  rfl

theorem step_of_no_events {s : State} (hcfg : configWf s.cfg = true) (hev : s.events = []) :
    step s = s.engineTurn := by
  rw [step_of_configWf hcfg, hev]

theorem step_of_engine {s : State} {rest : List Event} (hcfg : configWf s.cfg = true)
    (hev : s.events = .engine :: rest) :
    step s = State.engineTurn { s with events := rest } := by
  rw [step_of_configWf hcfg, hev]

/-- Settles O6: the engine's turn, at the state with the event taken. -/
theorem stepRunsTheDecodedCommand : Obligations.StepRunsTheDecodedCommand := by
  intro s hcfg hb
  refine ⟨fun i hd => ⟨fun hev => ?_, fun rest hev => ?_⟩,
    fun e hd => ⟨fun hev => ?_, fun rest hev => ?_⟩⟩
  · rw [step_of_no_events hcfg hev, engineTurn_of_decode hb hd]
  · rw [step_of_engine hcfg hev]; exact engineTurn_of_decode hb hd
  · rw [step_of_no_events hcfg hev, engineTurn_of_decode_error hb hd]
  · rw [step_of_engine hcfg hev]; exact engineTurn_of_decode_error hb hd

/-- Settles O49: the accesses change only what no command reads, so the engine's turn gives the
completion at once. -/
theorem latencyIsNotObservable : Obligations.LatencyIsNotObservable := by
  intro s t accs rest i hcfg hb hdec ha hev h
  obtain ⟨done, werr, ie, responses, hrun⟩ := run_accesses hcfg hb ha hev 1
  obtain ⟨flag', hu, hflag⟩ := exec_withUnread s s.flag done werr ie rest responses h
  obtain ⟨hdecoded, _⟩ := stepRunsTheDecodedCommand
    (withUnread s s.flag done werr ie (.engine :: rest) responses) hcfg hb
  have hstep := ((hdecoded i hdec).2 rest rfl).trans hu
  rw [hrun, run_succ hstep]
  exact ⟨_, rfl, rfl, rfl, hflag (.inl rfl), rfl, (completed_of_exec h).busy, rfl, rfl, rfl, rfl⟩

/-! ### The words of the window -/

/-- Four status bits and a code, summed at their places, are the concatenation of R34. -/
theorem ofNat_statusBits : ∀ (busy done flag werr : Bool) (code : BitVec 4),
    BitVec.ofNat 32 (busy.toNat + 2 * done.toNat + 4 * flag.toNat + 8 * werr.toNat
      + 16 * code.toNat) =
      0#24 ++ code ++ BitVec.ofBool werr ++ BitVec.ofBool flag ++ BitVec.ofBool done
        ++ BitVec.ofBool busy := by
  decide

/-- STATUS shows BUSY, DONE, FLAG, WERR and ERRCODE, and 0 above them (R34). -/
theorem windowRead_status (s : State) : s.windowRead 0x008#12 =
    0#24 ++ s.errcode ++ BitVec.ofBool s.werr ++ BitVec.ofBool s.flag ++ BitVec.ofBool s.done
      ++ BitVec.ofBool s.busy :=
  ofNat_statusBits s.busy s.done s.flag s.werr s.errcode

/-- CTRL shows IE alone (R33). -/
theorem windowRead_ctrl (s : State) : s.windowRead 0x004#12 = 0#31 ++ BitVec.ofBool s.ie := by
  show BitVec.ofNat 32 s.ie.toNat = _
  cases s.ie <;> rfl

theorem windowRead_cmd (s : State) : s.windowRead 0x00C#12 = s.cmdlast := rfl

theorem windowRead_dword (s : State) (i : DReg) (j : Fin 8) :
    s.windowRead (BitVec.ofNat 12 (0x100 + 0x20 * i.val + 4 * j.val)) = lane (s.readD i) j := by
  rw [State.windowRead, regionOf_dword, State.readRegion]

theorem windowRead_pointX (s : State) (i : PReg) (j : Fin 8) :
    s.windowRead (BitVec.ofNat 12 (0x400 + 0x80 * i.val + 4 * j.val)) =
      lane (s.readP i).xField j := by
  rw [State.windowRead, regionOf_pointX, State.readRegion]

theorem windowRead_pointY (s : State) (i : PReg) (j : Fin 8) :
    s.windowRead (BitVec.ofNat 12 (0x420 + 0x80 * i.val + 4 * j.val)) =
      lane (s.readP i).yField j := by
  rw [State.windowRead, regionOf_pointY, State.readRegion]

theorem windowRead_pointInf (s : State) (i : PReg) :
    s.windowRead (BitVec.ofNat 12 (0x440 + 0x80 * i.val)) =
      BitVec.ofNat 32 (s.readP i).isInf.toNat := by
  rw [State.windowRead, regionOf_pointInf, State.readRegion]

theorem lane_zero (j : Fin 8) : lane 0#256 j = 0#32 := BitVec.extractLsb'_zero

/-- A bit of a word is the bit of the register at the lane's place (R64). -/
theorem getLsbD_lane_of_lt (v : Word) (j : Fin 8) {b : Nat} (hb : b < 32) :
    (lane v j).getLsbD b = v.getLsbD (224 - 32 * j.val + b) := by
  rw [getLsbD_lane, decide_eq_true hb, Bool.true_and]

/-- The reserved offsets of R66 and R69. -/
theorem regionOf_eq_reserved {off : Offset} (h : off.toNat % 4 = 0)
    (hoff : (0x010 ≤ off.toNat ∧ off.toNat ≤ 0x0FF) ∨ (0x300 ≤ off.toNat ∧ off.toNat ≤ 0x3FF) ∨
      0xCC0 ≤ off.toNat ∨
      (0x400 ≤ off.toNat ∧ off.toNat < 0xC00 ∧ 0x44 ≤ off.toNat % 0x80)) :
    regionOf off = .reserved := by
  by_contra hr
  have hmap := toNat_eq_regionOffset h rfl hr
  generalize regionOf off = g at *
  cases g <;> simp only [regionOffset] at hmap
  case reserved => exact hr rfl
  all_goals omega

/-- Settles O53: the address map at each kind of offset, and the lanes of the registers. -/
theorem windowReadsTheRegisters : Obligations.WindowReadsTheRegisters := by
  intro s
  refine ⟨windowRead_id s, windowRead_ctrl s, windowRead_status s, windowRead_cmd s,
    fun i j b hb => ?_, fun i j x y b hb hP => ?_, fun i j hP => ?_, fun j b hb => ?_, fun off h4 hoff => ?_⟩
  · rw [windowRead_dword, getLsbD_lane_of_lt _ _ hb]
  · rw [windowRead_pointX, windowRead_pointY, windowRead_pointInf, hP, getLsbD_lane_of_lt _ _ hb,
      getLsbD_lane_of_lt _ _ hb]
    exact ⟨rfl, rfl, rfl⟩
  · rw [windowRead_pointX, windowRead_pointY, windowRead_pointInf, hP]
    exact ⟨lane_zero j, lane_zero j, rfl⟩
  · have word (k : Fin 6) :
        (s.windowRead (BitVec.ofNat 12 (0xC00 + 0x20 * k.val + 4 * j.val))).getLsbD b =
          (curveParam s.cfg.curve k).getLsbD (224 - 32 * j.val + b) := by
      rw [windowRead_curveWord, getLsbD_lane_of_lt _ _ hb]
    exact ⟨word 0, word 1, word 2, word 3, word 4, word 5⟩
  · rw [State.windowRead, regionOf_eq_reserved h4 hoff, State.readRegion]

/-! ### Writes to CMD, STATUS and CTRL -/

/-- Settles O57: the two branches of R37. -/
theorem cmdWrite : Obligations.CmdWrite :=
  fun s _ => ⟨fun hb => if_pos hb, fun hb => if_neg (Bool.eq_false_iff.1 hb), windowRead_cmd s⟩

theorem windowWrite_status (s : State) (v : BusWord) :
    s.windowWrite 0x008#12 v = s.writeStatus v := rfl

theorem windowWrite_ctrl (s : State) (v : BusWord) : s.windowWrite 0x004#12 v = s.writeCtrl v := rfl

/-- A bit that a 1 clears: it stays where the written bit is 0. -/
theorem and_not_eq_ite (a b : Bool) : (a && !b) = if b then false else a := by
  cases b
  · exact Bool.and_true a
  · exact Bool.and_false a

/-- Settles O58: STATUS word by word, its write-1-to-clear bits, and irq from IE and DONE. -/
theorem statusAndInterrupt : Obligations.StatusAndInterrupt := by
  refine ⟨windowRead_status, fun s v => ?_, fun s t i h => ?_, fun s v hv => ?_, fun s w hb => ?_⟩
  · rw [windowWrite_status, State.writeStatus, and_not_eq_ite, and_not_eq_ite]
  · have hc := completed_of_exec h
    rw [State.irq, hc.done, hc.ie, Bool.and_true]
  · rw [windowWrite_status, State.irq, writeStatus_done, hv, Bool.not_true, Bool.and_false,
      Bool.and_false]
  · rw [windowWrite_cmd, State.writeCmd, if_neg (Bool.eq_false_iff.1 hb), State.irq, issue_done,
      Bool.and_false]

/-! ### Writes to a word of a data register -/

/-- A write to a word of a data register, dropped while BUSY = 1 (R68, R287). -/
theorem windowWrite_dword (s : State) (i : DReg) (j : Fin 8) (v : BusWord) :
    s.windowWrite (BitVec.ofNat 12 (0x100 + 0x20 * i.val + 4 * j.val)) v = s.writeLane i j v := by
  rw [State.windowWrite, regionOf_dword, State.writeRegion]

/-- Only one aligned offset names a word of a data register (R66). -/
theorem eq_ofNat_of_regionOf_dword {off : Offset} {i : DReg} {j : Fin 8} (h : off.toNat % 4 = 0)
    (hr : regionOf off = .dword i j) :
    off = BitVec.ofNat 12 (0x100 + 0x20 * i.val + 4 * j.val) := by
  have hmap : off.toNat = 0x100 + 0x20 * i.val + 4 * j.val :=
    toNat_eq_regionOffset h hr Region.noConfusion
  rw [← hmap, BitVec.ofNat_toNat, BitVec.setWidth_eq]

/-- A word replaced in a data register reads back, and every other word of the window is kept
(R68). -/
theorem readRegion_writeD_setLane (s : State) (i : DReg) (j : Fin 8) (v : BusWord) (g : Region) :
    (s.writeD i (setLane (s.readD i) j v)).readRegion g =
      if g = .dword i j then v else s.readRegion g := by
  cases g
  case dword i' j' =>
    simp only [State.readRegion, readD_writeD, Region.dword.injEq]
    by_cases hi : i' = i
    · subst hi
      by_cases hj : j' = j
      · subst hj; simp
      · simp [hj, lane_setLane_ne]
    · simp [hi]
  all_goals exact (if_neg Region.noConfusion).symm

/-- Bit 0 of a word, alone. -/
theorem zero_append_ofBool_getLsbD (v : BusWord) :
    0#31 ++ BitVec.ofBool (v.getLsbD 0) = v &&& 1#32 := by
  rw [BitVec.and_one_eq_setWidth_ofBool_getLsbD, BitVec.setWidth_eq_append (by decide)]
  rfl

/-- Settles O59: a word of a data register is dropped or replaced, and CTRL takes IE. -/
theorem dataWordAndCtrlWrites : Obligations.DataWordAndCtrlWrites := by
  intro s i j v
  refine ⟨fun hb => ?_, fun hb => ?_, fun hv => ?_⟩
  · rw [windowWrite_dword, State.writeLane, if_pos hb, State.dropWrite]
  · rw [windowWrite_dword, State.writeLane, if_neg (Bool.eq_false_iff.1 hb)]
    refine ⟨?_, fun off' h4 hne => ?_⟩
    · rw [windowRead_dword, readD_writeD_self, lane_setLane_self]
    · have hr : regionOf off' ≠ .dword i j := fun hr => hne (eq_ofNat_of_regionOf_dword h4 hr)
      rw [State.windowRead, readRegion_writeD_setLane, if_neg hr, State.windowRead]
  · have hw : s.windowWrite 0x004#12 v = { s with ie := v.getLsbD 0 } := by
      rw [windowWrite_ctrl, State.writeCtrl, if_neg (Bool.eq_false_iff.1 hv)]
    rw [hw, windowRead_ctrl]
    exact ⟨rfl, zero_append_ofBool_getLsbD v⟩

end Sys2Proof.Proofs
end

section
/-! SUPPORT. The read-only words of the window, one host access by what it names, the words of a
digest, and the statements on the window and the next event (R61 to R65, R71, R72, R74, R76, R264,
R271) settled with them. -/

namespace Sys2Proof.Proofs

open Sys2Proof.Machine Sys2Proof.Laws

/-! ### Reserved and read-only words -/

/-- No word but CTRL, STATUS, CMD and those of the data registers takes a write (R71, R72). -/
theorem windowWrite_eq_self {s : State} {off : Offset} {v : BusWord} (h : off.toNat % 4 = 0)
    (hoff : off.toNat = 0x000 ∨ (0x010 ≤ off.toNat ∧ off.toNat ≤ 0x0FF) ∨ 0x300 ≤ off.toNat) :
    s.windowWrite off v = s := by
  have hmap := toNat_eq_regionOffset h rfl
  rw [State.windowWrite]
  generalize regionOf off = g at *
  cases g <;> simp only [regionOffset, ne_eq, reduceCtorEq, not_false_eq_true, forall_const] at hmap
  case id => rfl
  case pointX => rfl
  case pointY => rfl
  case pointInf => rfl
  case curveWord => rfl
  case reserved => rfl
  all_goals omega

/-- Settles O54: the address map at the reserved offsets, and the words that ignore a write. -/
theorem reservedAndReadOnlyWords : Obligations.ReservedAndReadOnlyWords := by
  intro s off v h4
  refine ⟨fun hoff => ⟨?_, windowWrite_eq_self h4 (by omega)⟩,
    fun hoff => windowWrite_eq_self h4 (by omega)⟩
  rw [State.windowRead, regionOf_eq_reserved h4 hoff, State.readRegion]

/-! ### The words of a digest -/

/-- The words f written to the lanes l of a data register, one after another. -/
def writeLanes (s : State) (i : DReg) (f : Fin 8 → BusWord) (l : List (Fin 8)) : State :=
  l.foldl (fun u j => u.writeLane i j (f j)) s

theorem writeLane_of_idle {s : State} (hb : s.busy = false) (i : DReg) (j : Fin 8) (v : BusWord) :
    s.writeLane i j v = s.writeD i (setLane (s.readD i) j v) := if_neg (Bool.eq_false_iff.1 hb)

/-- While BUSY = 0 each lane of the list takes its word, and every other lane and register is kept
(R68). -/
theorem lane_readD_writeLanes {i : DReg} {f : Fin 8 → BusWord} (r : DReg) (j : Fin 8) :
    ∀ {l : List (Fin 8)} {s : State}, s.busy = false →
      lane ((writeLanes s i f l).readD r) j =
        if r = i ∧ j ∈ l then f j else lane (s.readD r) j
  | [], s, _ => by simp [writeLanes]
  | k :: l, s, hb => by
    have ih := lane_readD_writeLanes (i := i) (f := f) r j (l := l)
      (s := s.writeD i (setLane (s.readD i) k (f k))) hb
    rw [writeLanes, List.foldl_cons, writeLane_of_idle hb, ← writeLanes, ih, readD_writeD]
    by_cases hr : r = i
    · subst hr
      by_cases hj : j = k
      · subst hj; simp
      · simp [hj, lane_setLane_ne]
    · simp [hr]

/-- A value of eight lanes, read in base 2^32: the value above lane j, with lane j below it (R64). -/
theorem toNat_div_eq_lane (v : Word) (j : Fin 8) :
    v.toNat / 2 ^ (256 - 32 * (j.val + 1)) =
      v.toNat / 2 ^ (256 - 32 * j.val) * 2 ^ 32 + (lane v j).toNat := by
  have hlow : 256 - 32 * (j.val + 1) = 224 - 32 * j.val := by omega
  have hhigh : 256 - 32 * j.val = 224 - 32 * j.val + 32 := by omega
  rw [lane, BitVec.extractLsb'_toNat, Nat.shiftRight_eq_div_pow, hlow, hhigh, Nat.pow_add,
    ← Nat.div_div_eq_div_mul, Nat.div_add_mod']

theorem toNat_append_byte {n : Nat} (x : BitVec n) (b : Byte) :
    (x ++ b).toNat = x.toNat * 256 + b.toNat := by
  rw [BitVec.toNat_append, ← Nat.shiftLeft_add_eq_or_of_lt b.isLt, Nat.shiftLeft_eq]

/-- Bytes as a big-endian unsigned integer. -/
def bytesValue (l : List Byte) : Nat := l.foldl (fun acc x => acc * 256 + x.toNat) 0

theorem digestValue_eq_bytesValue (d : Vector Byte 32) : digestValue d = bytesValue d.toList := rfl

theorem bytesValue_concat (l : List Byte) (b : Byte) :
    bytesValue (l ++ [b]) = bytesValue l * 256 + b.toNat := by
  rw [bytesValue, List.foldl_concat, ← bytesValue]

theorem bytesValue_take_succ (d : Vector Byte 32) {n : Nat} (hn : n < 32) :
    bytesValue (d.toList.take (n + 1)) = bytesValue (d.toList.take n) * 256 + d[n].toNat := by
  rw [List.take_succ_eq_append_getElem (by simpa using hn), bytesValue_concat, Vector.getElem_toList]

/-- Four bytes more of a digest are one word more in base 2^32 (R65). -/
theorem bytesValue_take_word (d : Vector Byte 32) (j : Fin 8) :
    bytesValue (d.toList.take (4 * (j.val + 1))) =
      bytesValue (d.toList.take (4 * j.val)) * 2 ^ 32 + (digestWord d j).toNat := by
  rw [Nat.mul_succ, bytesValue_take_succ d (by omega), bytesValue_take_succ d (by omega),
    bytesValue_take_succ d (by omega), bytesValue_take_succ d (by omega), digestWord,
    toNat_append_byte, toNat_append_byte, toNat_append_byte]
  ring

/-- The first k lanes of a register that holds the words of a digest are the first 4 k bytes. -/
theorem toNat_div_eq_bytesValue {v : Word} {d : Vector Byte 32}
    (h : ∀ j, lane v j = digestWord d j) :
    ∀ k ≤ 8, v.toNat / 2 ^ (256 - 32 * k) = bytesValue (d.toList.take (4 * k))
  | 0, _ => Nat.div_eq_of_lt v.isLt
  | k + 1, hk => by
    have hlane := toNat_div_eq_lane v ⟨k, hk⟩
    rw [h, toNat_div_eq_bytesValue h k (by omega)] at hlane
    exact hlane.trans (bytesValue_take_word d ⟨k, hk⟩).symm

/-- A register that holds the words of a digest holds its value (R65). -/
theorem toNat_eq_digestValue {v : Word} {d : Vector Byte 32} (h : ∀ j, lane v j = digestWord d j) :
    v.toNat = digestValue d := by
  have hall := toNat_div_eq_bytesValue h 8 le_rfl
  rw [List.take_of_length_le (by simp)] at hall
  rw [digestValue_eq_bytesValue, ← hall, Nat.pow_zero, Nat.div_one]

/-- Settles O60: the eight writes leave the digest's word in each lane of the register. -/
theorem digestWordsMakeTheDigest : Obligations.DigestWordsMakeTheDigest := by
  intro s i d hb
  simp only [windowWrite_dword, windowRead_dword]
  have hlane (r : DReg) (j : Fin 8) := lane_readD_writeLanes (i := i) (f := digestWord d) r j
    (l := List.finRange 8) hb
  have hword (j : Fin 8) : lane ((writeLanes s i (digestWord d) (List.finRange 8)).readD i) j =
      digestWord d j := by rw [hlane, if_pos ⟨rfl, List.mem_finRange j⟩]
  exact ⟨toNat_eq_digestValue hword,
    fun r hr => word_ext_lanes fun j => by rw [← writeLanes, hlane, if_neg (hr ·.1)], hword⟩

/-! ### The next event -/

theorem step_of_bus {s : State} {a : Access} {rest : List Event} (hcfg : configWf s.cfg = true)
    (hev : s.events = .bus a :: rest) :
    step s = .next (State.busAccess { s with events := rest } a) := by
  rw [step_of_configWf hcfg, hev]

theorem step_of_hardReset {s : State} {rest : List Event} (hcfg : configWf s.cfg = true)
    (hev : s.events = .hardReset :: rest) :
    step s = .next (State.resetBlock { s with events := rest }) := by
  rw [step_of_configWf hcfg, hev]

/-- With no command in flight the engine's turn changes nothing (R271). -/
theorem engineTurn_of_idle {s : State} (hb : s.busy = false) : s.engineTurn = .next s :=
  if_neg (Bool.eq_false_iff.1 hb)

/-- Settles O7: a step under a well-formed configuration, event by event. -/
theorem stepTakesTheNextEvent : Obligations.StepTakesTheNextEvent := by
  intro s hcfg
  refine ⟨fun a rest => step_of_bus hcfg, fun rest => step_of_hardReset hcfg,
    fun rest hb hev => ?_, fun hb hev => ?_⟩
  · rw [step_of_engine hcfg hev]; exact engineTurn_of_idle hb
  · rw [step_of_no_events hcfg hev, engineTurn_of_idle hb]

/-! ### One host access -/

theorem accessOk_iff {width : Width} {off : Offset} :
    accessOk width off = true ↔ width = .w32 ∧ off.toNat % 4 = 0 := by
  rw [accessOk, Bool.and_eq_true, beq_iff_eq, beq_iff_eq]

/-- An address outside the window has no offset in it (R61). -/
theorem windowOffset_eq_none {base addr : Nat} (h : addr < base ∨ base + 4096 ≤ addr) :
    windowOffset base addr = none := if_neg (by omega)

section
variable {s : State} {width : Width} {addr : Nat}

/-- An access that reaches no offset of the window changes nothing (R61). -/
theorem busAccess_of_no_offset (ho : windowOffset s.cfg.windowBase addr = none) (v : BusWord) :
    s.busAccess (.read width addr) = s ∧ s.busAccess (.write width addr v) = s := by
  simp only [State.busAccess, ho, and_self]

/-- An access that the bus does not let through only gets a bus error (R62, R63). -/
theorem busAccess_of_not_accessOk {off : Offset} (ho : windowOffset s.cfg.windowBase addr = some off)
    (hk : ¬accessOk width off = true) (v : BusWord) :
    s.busAccess (.read width addr) = s.respond (.busError off) ∧
      s.busAccess (.write width addr v) = s.respond (.busError off) := by
  simp only [State.busAccess, ho, if_neg hk, and_self]

/-- A read that the bus lets through only gets the word (R74, R76). -/
theorem busAccess_read_of_accessOk {off : Offset}
    (ho : windowOffset s.cfg.windowBase addr = some off) (hk : accessOk width off = true) :
    s.busAccess (.read width addr) = s.respond (.data (s.windowRead off)) := by
  simp only [State.busAccess, ho, if_pos hk]

end

/-- Settles O55: the test of width and alignment fails, and the response is all there is. -/
theorem busErrorsHaveNoEffect : Obligations.BusErrorsHaveNoEffect := by
  intro s width addr off v ho hbad
  have hk : ¬accessOk width off = true := by rw [accessOk_iff]; tauto
  exact busAccess_of_not_accessOk ho hk v

/-- Settles O56: a read's one effect is its response, and outside the window there is none. -/
theorem readsHaveNoSideEffect : Obligations.ReadsHaveNoSideEffect :=
  ⟨fun _ _ _ ho h4 => busAccess_read_of_accessOk ho (accessOk_iff.2 ⟨rfl, h4⟩),
    fun _ _ _ v hout => busAccess_of_no_offset (windowOffset_eq_none hout) v⟩

end Sys2Proof.Proofs
end

section
/-! SUPPORT. Encoding and decoding command by command, the conditions of R98 by opcode, and the
statements on command words and lines (R90 to R105) settled with them. -/

namespace Sys2Proof.Proofs

open Sys2Proof.Machine Sys2Proof.Laws

/-! ### The word of a command -/

@[simp] theorem modulusOf_bit (m : Modulus) : modulusOf m.bit = m := by cases m <;> rfl

@[simp] theorem modulusOf_false : modulusOf false = .p := rfl

@[simp] theorem bit_modulusOf (m : Bool) : (modulusOf m).bit = m := by cases m <;> rfl

/-- The fields of every command's word are those its row of R97 allows. -/
theorem fields_encode (i : Instr) : Fields.Statement i :=
  i.casesOn Fields.nop Fields.madd Fields.msub Fields.mneg Fields.mred Fields.montmul Fields.mmul
    Fields.tomont Fields.frommont Fields.minv Fields.pval Fields.pload Fields.pinf Fields.pgen
    Fields.pmov Fields.pgetx Fields.pgety Fields.pisinf Fields.peq Fields.pneg Fields.padd
    Fields.pdbl Fields.pmul Fields.keygen Fields.pubkey Fields.sign Fields.verify

/-- The fields of a command's word, in the roles of R97, give the command back. -/
theorem instrOf_fields_encode (i : Instr) :
    instrOf i.opcode (fieldA (encode i)) (fieldB (encode i)) (fieldC (encode i))
      (fieldD (encode i)) (modulusOf (fieldM (encode i))) = i := by
  cases i <;> simp [encode, instrOf, Instr.opcode, packWord_fields, code_lt]

/-- The one check on commands is R98 (5) on their words. -/
theorem wellFormed_iff (i : Instr) :
    i.wellFormed = true ↔ (i.opcode = .sign → fieldA (encode i) ≠ fieldD (encode i)) := by
  cases i <;> simp [Instr.wellFormed, Instr.opcode, encode, packWord_fields, code_lt]

/-- Settles O1: the word of a command passes every check of R100, and its fields are the command's
operands. -/
theorem decodeOfEncode : Obligations.DecodeOfEncode := by
  intro i hwf
  obtain ⟨hopc, hrsv, hm, hunused⟩ := fields_encode i
  have ho : Opcode.ofCode (opcField (encode i)) = some i.opcode := by rw [hopc, ofCode_code]
  rw [decode_of_fields ho hrsv hm hunused ((wellFormed_iff i).1 hwf), instrOf_fields_encode]

/-! ### The word of a decoded command -/

@[simp] theorem opcode_instrOf (o : Opcode) (a b c d : Fin 16) (m : Modulus) :
    (instrOf o a b c d m).opcode = o := by cases o <;> rfl

/-- The command of an opcode has the fields its row of R97 uses, and 0 in the others. -/
theorem encode_instrOf (o : Opcode) (a b c d : Fin 16) (m : Modulus) :
    encode (instrOf o a b c d m) =
      packWord o.code (if o.usesA then a else 0) (if o.usesB then b else 0)
        (if o.usesC then c else 0) (if o.usesD then d else 0) (o.usesM && m.bit) := by
  cases o <;> rfl

theorem unusedFieldSet_eq_false_iff {o : Opcode} {a b c d : Fin 16} :
    unusedFieldSet o a b c d = false ↔
      (o.usesA = false → a = 0) ∧ (o.usesB = false → b = 0) ∧ (o.usesC = false → c = 0) ∧
        (o.usesD = false → d = 0) := by
  simp [unusedFieldSet, and_assoc]

/-- Legal fields are the fields of the word of their command. -/
theorem encode_instrOf_of_legal {o : Opcode} {a b c d : Fin 16} {m : Modulus}
    (hm : m.bit = true → o.usesM = true) (hunused : unusedFieldSet o a b c d = false) :
    encode (instrOf o a b c d m) = packWord o.code a b c d m.bit := by
  obtain ⟨ha, hb, hc, hd⟩ := unusedFieldSet_eq_false_iff.1 hunused
  have keep {u : Bool} {x : Fin 16} (h : u = false → x = 0) : (if u then x else 0) = x :=
    ite_eq_left_iff.2 fun hu => (h (Bool.eq_false_iff.2 hu)).symm
  rw [encode_instrOf, keep ha, keep hb, keep hc, keep hd, Bool.and_eq_right_iff_imp.2 hm]

/-- Settles O2: the fields of a word that decodes are legal, so its command is packed from them. -/
theorem encodeOfDecode : Obligations.EncodeOfDecode := by
  intro w i hdec
  obtain ⟨o, ho, hrsv, hm, hunused, hsign, rfl⟩ := fields_of_decode hdec
  have hw : encode (instrOf o (fieldA w) (fieldB w) (fieldC w) (fieldD w)
      (modulusOf (fieldM w))) = w := by
    rw [encode_instrOf_of_legal (by rwa [bit_modulusOf]) hunused, bit_modulusOf,
      code_of_ofCode ho, packWord_of_fields w hrsv]
  exact ⟨by rwa [wellFormed_iff, hw, opcode_instrOf], hw⟩

/-! ### Illegal words -/

/-- The OPC values with an opcode are the assigned ones (R96). -/
theorem mem_assignedOpcodes_iff {n : Nat} :
    n ∈ assignedOpcodes ↔ ∃ o, Opcode.ofCode n = some o := by
  have hsome : ∀ n ∈ assignedOpcodes, (Opcode.ofCode n).isSome = true := by decide
  refine ⟨fun h => Option.isSome_iff_exists.1 (hsome n h), fun ⟨o, ho⟩ => ?_⟩
  rw [← code_of_ofCode ho]
  cases o <;> decide

section
variable (o : Opcode)

theorem code_mem_modulusOpcodes : o.code ∈ modulusOpcodes ↔ o.usesM = true := by
  cases o <;> decide

theorem code_mem_zeroAOpcodes : o.code ∈ zeroAOpcodes ↔ o.usesA = false := by cases o <;> decide

theorem code_mem_zeroBOpcodes : o.code ∈ zeroBOpcodes ↔ o.usesB = false := by cases o <;> decide

theorem code_mem_zeroCOpcodes : o.code ∈ zeroCOpcodes ↔ o.usesC = false := by cases o <;> decide

theorem code_mem_usedDOpcodes : o.code ∈ usedDOpcodes ↔ o.usesD = true := by cases o <;> decide

theorem code_eq_sign_iff : o.code = 0x22 ↔ o = .sign := by cases o <;> decide

end

/-- A register number is its four bits (R92). -/
theorem regField_eq_toFin (w : BusWord) (lo : Nat) : regField w lo = (w.extractLsb' lo 4).toFin :=
  Fin.ext (Nat.mod_eq_of_lt (w.extractLsb' lo 4).isLt)

theorem regField_inj {w : BusWord} {lo lo' : Nat} :
    regField w lo = regField w lo' ↔ w.extractLsb' lo 4 = w.extractLsb' lo' 4 := by
  rw [regField_eq_toFin, regField_eq_toFin, BitVec.toFin_inj]

theorem regField_eq_zero_iff {w : BusWord} {lo : Nat} :
    regField w lo = 0 ↔ w.extractLsb' lo 4 = 0#4 := by
  rw [regField_eq_toFin]
  exact BitVec.toFin_inj (y := 0#4)

theorem fieldRsv_eq_zero_iff {w : BusWord} : fieldRsv w = 0 ↔ w.extractLsb' 0 7 = 0#7 :=
  BitVec.toNat_inj (y := 0#7)

/-- On a word with an assigned opcode, no condition of R98 is the passing of every check of R100. -/
theorem not_illegalFields_code_iff {o : Opcode} {w : BusWord} :
    ¬ illegalFields o.code w ↔ fieldRsv w = 0 ∧ (fieldM w = true → o.usesM = true) ∧
      unusedFieldSet o (fieldA w) (fieldB w) (fieldC w) (fieldD w) = false ∧
      (o = .sign → fieldA w ≠ fieldD w) := by
  have hassigned : o.code ∈ assignedOpcodes := mem_assignedOpcodes_iff.2 ⟨o, ofCode_code o⟩
  simp only [illegalFields, hassigned, code_mem_modulusOpcodes, code_mem_zeroAOpcodes,
    code_mem_zeroBOpcodes, code_mem_zeroCOpcodes, code_mem_usedDOpcodes, code_eq_sign_iff,
    fieldA, fieldB, fieldC, fieldD, fieldM, regField_inj, regField_eq_zero_iff,
    fieldRsv_eq_zero_iff, unusedFieldSet_eq_false_iff, ne_eq, not_or, not_and, not_not,
    Bool.not_eq_true, Bool.not_eq_false, and_assoc, true_and]

/-- R98: the legal words are those that decode. -/
theorem not_illegalWord_iff {w : BusWord} : ¬ illegalWord w ↔ ∃ i, decode w = .ok i := by
  change ¬ illegalFields (opcField w) w ↔ _
  constructor
  · intro hlegal
    obtain ⟨o, ho⟩ := mem_assignedOpcodes_iff.1 (not_not.1 (not_or.1 hlegal).1)
    rw [← code_of_ofCode ho, not_illegalFields_code_iff] at hlegal
    obtain ⟨hrsv, hm, hunused, hsign⟩ := hlegal
    exact ⟨_, decode_of_fields ho hrsv hm hunused hsign⟩
  · rintro ⟨i, hdec⟩
    obtain ⟨o, ho, hrsv, hm, hunused, hsign, -⟩ := fields_of_decode hdec
    rw [← code_of_ofCode ho, not_illegalFields_code_iff]
    exact ⟨hrsv, hm, hunused, hsign⟩

theorem exists_decode_error {w : BusWord} (h : illegalWord w) : ∃ e, decode w = .error e := by
  rcases hdec : decode w with e | i
  · exact ⟨e, rfl⟩
  · exact absurd h (not_illegalWord_iff.2 ⟨i, hdec⟩)

/-- The completion of a word that does not decode is an ILLEGAL one (R98, R251). -/
theorem engineStep_of_decode_error {s : State} {e : DecodeError} (hdec : decode s.cur = .error e) :
    s.engineStep = .next (s.complete (.error .illegal)) := by
  rw [State.engineStep, hdec]
  rfl

/-- Settles O3: the conditions of R98 are the failures to decode, and an ILLEGAL completion changes
the status alone. -/
theorem illegalWordsAreExactlyTheFiveConditions :
    Obligations.IllegalWordsAreExactlyTheFiveConditions := by
  refine ⟨fun w => exists_decode_error, fun w hlegal => ?_, fun s _ hill => ?_⟩
  · obtain ⟨i, hdec⟩ := not_illegalWord_iff.1 hlegal
    exact ⟨i, (encodeOfDecode w i hdec).1, hdec⟩
  · obtain ⟨e, hdec⟩ := exists_decode_error hill
    obtain ⟨honly, hnoDraw⟩ := onlyError_complete s .illegal
    exact ⟨_, engineStep_of_decode_error hdec, honly, rfl, hnoDraw⟩

/-- Settles O4: each word is the word of its command, which decodes as itself. -/
theorem exampleWordsDecode : Obligations.ExampleWordsDecode :=
  ⟨decodeOfEncode (.madd .p 3 1 2) rfl, decodeOfEncode (.madd .n 3 1 2) rfl,
    decodeOfEncode (.minv .p 2 1) rfl, decodeOfEncode (.pload 1 1 2) rfl,
    decodeOfEncode (.pmul 2 1 1) rfl, decodeOfEncode (.sign 3 4 1 2) rfl,
    decodeOfEncode (.verify 1 2 3 4) rfl⟩

/-! ### Lines of the assembler -/

theorem assemble_disassemble (i : Instr) : assemble (disassemble i) = some i := by cases i <;> rfl

/-- A field command without its suffix is rejected (R102). -/
theorem assemble_no_suffix : ∀ (o : Opcode) (ops : List Operand), o.usesM = true →
    assemble ⟨.op o, none, ops⟩ = none
  | .madd, _, _ | .msub, _, _ | .montmul, _, _ | .mmul, _, _ => rfl
  | .mneg, _, _ | .mred, _, _ | .tomont, _, _ | .frommont, _, _ | .minv, _, _ => rfl

/-- Settles O5: line by line, and each pseudo-instruction by its expansion in R103. -/
theorem assemblerReadsLines : Obligations.AssemblerReadsLines :=
  ⟨assemble_disassemble, assemble_no_suffix, fun _ _ _ => ⟨rfl, rfl, rfl, rfl⟩⟩

end Sys2Proof.Proofs
end

section
/-! SUPPORT. The field arithmetic as congruences modulo M, the Montgomery radix cancelled against its
inverse, and the statements on NOP and the field commands (R120 to R131, R134) settled with them. -/

namespace Sys2Proof.Proofs

open Sys2Proof.Machine Sys2Proof.Laws

/-! ### NOP -/

theorem eq_nop_of_opcode {i : Instr} (h : i.opcode = .nop) : i = .nop := by
  cases i with
  | nop => rfl
  | _ => cases h

/-- The only word of NOP is 0 (R99, R120). -/
theorem decode_eq_nop_iff (w : BusWord) : decode w = .ok .nop ↔ w = 0#32 := by
  constructor
  · intro hdec
    obtain ⟨_, henc⟩ := encodeOfDecode w .nop hdec
    exact henc.symm
  · rintro rfl
    exact decodeOfEncode .nop rfl

/-- A word that decodes has the OPC value of its command (R96). -/
theorem opcode_of_decode {w : BusWord} {i : Instr} (h : decode w = .ok i) :
    i.opcode.code = opcField w := by
  obtain ⟨o, ho, _, _, _, _, rfl⟩ := fields_of_decode h
  rw [opcode_instrOf, code_of_ofCode ho]

/-- Among the words of OPC 0 only 0 decodes (R98, R120). -/
theorem exists_decode_error_of_opc_zero {w : BusWord} (hopc : w.extractLsb' 24 8 = 0#8)
    (hw : w ≠ 0#32) : ∃ e, decode w = .error e := by
  rcases hdec : decode w with e | i
  · exact ⟨e, rfl⟩
  · have hcode : i.opcode.code = Opcode.nop.code :=
      (opcode_of_decode hdec).trans (congrArg BitVec.toNat hopc)
    have hnop : i.opcode = .nop := by
      rw [← Option.some_inj, ← ofCode_code, hcode, ofCode_code]
    rw [eq_nop_of_opcode hnop] at hdec
    exact absurd ((decode_eq_nop_iff w).1 hdec) hw

/-- STATUS after a success that leaves FLAG and WERR 0 shows DONE alone (R34). -/
theorem statusWord_of_completed {s t : State} (h : Completed s t 0#4) (hflag : t.flag = false)
    (hwerr : s.werr = false) : t.statusWord = 2#32 := by
  rw [State.statusWord, h.busy, h.done, hflag, h.werr, hwerr, h.errcode]
  rfl

/-- Settles O9: the word of NOP is 0, and its completion commits nothing. -/
theorem nopOnlyCompletes : Obligations.NopOnlyCompletes := by
  refine ⟨decode_eq_nop_iff, fun _ => exists_decode_error_of_opc_zero, fun s => ?_⟩
  have hc : Completed s (s.complete (.ok commitNone)) 0#4 := completed_complete s (.ok commitNone)
  exact ⟨_, rfl, hc, fun _ => rfl, fun _ => rfl, rfl, ⟨rfl, rfl⟩, statusWord_of_completed hc⟩

/-! ### Results of the field arithmetic as congruences -/

theorem toWord_modulo_lt (a : Int) {M : Word} (hM : 0 < M.toNat) :
    (toWord (modulo a M.toNat)).toNat < M.toNat := by
  rw [toWord_modulo_toNat a hM]
  exact modulo_lt a hM

theorem toWord_modulo_congr {a b : Int} {m : Nat} (h : a ≡ b [ZMOD m]) :
    toWord (modulo a m) = toWord (modulo b m) :=
  congrArg toWord (modulo_congr h)

theorem toWord_modulo_congr_nat {a b m : Nat} (h : a ≡ b [MOD m]) :
    toWord (modulo (a : Int) m) = toWord (modulo (b : Int) m) :=
  toWord_modulo_congr (Int.natCast_modEq_iff.2 h)

theorem modRed_modEq (a : Word) {M : Word} (hM : 0 < M.toNat) :
    (modRed a M.toNat).toNat ≡ a.toNat [MOD M.toNat] := by
  rw [modRed_toNat a hM]
  exact Nat.mod_modEq _ _

theorem modSub_add_modEq (a b : Word) {M : Word} (hM : 0 < M.toNat) :
    (modSub a b M.toNat).toNat + b.toNat ≡ a.toNat [MOD M.toNat] := by
  rw [← Int.natCast_modEq_iff, Nat.cast_add, modSub_cast a b hM]
  calc ((a.toNat : Int) - b.toNat) % M.toNat + b.toNat
      ≡ a.toNat - b.toNat + b.toNat [ZMOD M.toNat] := (Int.mod_modEq _ _).add_right _
    _ = a.toNat := sub_add_cancel _ _

/-- MNEG is MSUB from 0 (R123, R124). -/
theorem modNeg_eq_modSub (a : Word) (m : Nat) : modNeg a m = modSub 0#256 a m := rfl

theorem modNeg_add_mod (a : Word) {M : Word} (hM : 0 < M.toNat) :
    ((modNeg a M.toNat).toNat + a.toNat) % M.toNat = 0 := by
  rw [modNeg_eq_modSub, modSub_add_modEq 0#256 a hM]
  exact Nat.zero_mod _

/-- FROMMONT is MONTMUL by 1 (R131). -/
theorem fromMont_eq_montMul (a : Word) (m : Nat) : fromMont a m = montMul a 1#256 m := by
  rw [montMul, show (1#256 : Word).toNat = 1 from rfl, Nat.mul_one]
  rfl

section
variable {M : Word} (hM : 3 ≤ M.toNat) (hodd : M.toNat % 2 = 1)
include hM hodd

/-- R Rinv = 1 modulo an odd M (R126), beside any factor. -/
theorem mul_montRadixInv_mul_montRadix_modEq (x : Nat) :
    x * montRadixInv M.toNat * montRadix ≡ x [MOD M.toNat] := by
  obtain ⟨_, _, hinv⟩ := montRadixInv_spec (by omega) M.isLt.le hodd
  have hone : montRadix * montRadixInv M.toNat ≡ 1 [MOD M.toNat] := by
    rw [Nat.ModEq, hinv, Nat.mod_eq_of_lt (by omega)]
  calc x * montRadixInv M.toNat * montRadix
      = x * (montRadix * montRadixInv M.toNat) := by ring
    _ ≡ x * 1 [MOD M.toNat] := hone.mul_left x
    _ = x := Nat.mul_one x

/-- The value v of MONTMUL has R v = a b modulo M (R126, R128). -/
theorem montRadix_mul_montMul_modEq (a b : Word) :
    montRadix * (montMul a b M.toNat).toNat ≡ a.toNat * b.toNat [MOD M.toNat] := by
  rw [montMul_toNat a b (by omega), Nat.mul_comm]
  exact ((Nat.mod_modEq _ _).mul_right _).trans
    (mul_montRadixInv_mul_montRadix_modEq hM hodd _)

/-- The value v of FROMMONT has R v = a modulo M (R126, R131). -/
theorem montRadix_mul_fromMont_modEq (a : Word) :
    montRadix * (fromMont a M.toNat).toNat ≡ a.toNat [MOD M.toNat] := by
  have h := montRadix_mul_montMul_modEq hM hodd a 1#256
  rwa [← fromMont_eq_montMul, show (1#256 : Word).toNat = 1 from rfl, Nat.mul_one] at h

theorem toMont_fromMont (a : Word) : toMont (fromMont a M.toNat) M.toNat = modRed a M.toNat :=
  toWord_modulo_congr_nat <| by
    rw [Nat.mul_comm]
    exact montRadix_mul_fromMont_modEq hM hodd a

theorem fromMont_toMont (a : Word) : fromMont (toMont a M.toNat) M.toNat = modRed a M.toNat :=
  toWord_modulo_congr_nat <| by
    rw [toMont_toNat a (by omega)]
    calc a.toNat * montRadix % M.toNat * montRadixInv M.toNat
        ≡ a.toNat * montRadix * montRadixInv M.toNat [MOD M.toNat] :=
          (Nat.mod_modEq _ _).mul_right _
      _ = a.toNat * montRadixInv M.toNat * montRadix := Nat.mul_right_comm _ _ _
      _ ≡ a.toNat [MOD M.toNat] := mul_montRadixInv_mul_montRadix_modEq hM hodd _

end

/-! ### The commands of the adder -/

/-- Settles O10: MADD commits the residue of the sum. -/
theorem maddWritesTheSum : Obligations.MaddWritesTheSum := by
  intro s m rd ra rb hwf
  obtain ⟨M, hmod, hM, _⟩ := exists_word_modulus hwf m
  refine ⟨_, modAdd (s.readD ra) (s.readD rb) (s.modulus m), rfl, onlyD_complete s rd _, ?_⟩
  rw [hmod]
  exact modAdd_toNat _ _ (by omega)

/-- Settles O11: MSUB commits the residue that gives back a when b is added. -/
theorem msubWritesTheDifference : Obligations.MsubWritesTheDifference := by
  intro s m rd ra rb hwf
  obtain ⟨M, hmod, hM, _⟩ := exists_word_modulus hwf m
  refine ⟨_, modSub (s.readD ra) (s.readD rb) (s.modulus m), rfl, onlyD_complete s rd _, ?_⟩
  rw [hmod]
  exact ⟨toWord_modulo_lt _ (by omega), modSub_add_modEq _ _ (by omega)⟩

/-- Settles O12: MNEG, which is MSUB from 0, commits the residue of - a, and MRED that of a. -/
theorem mnegAndMredWriteResidues : Obligations.MnegAndMredWriteResidues := by
  intro s m rd ra hwf
  obtain ⟨M, hmod, hM, _⟩ := exists_word_modulus hwf m
  constructor
  · refine ⟨_, modNeg (s.readD ra) (s.modulus m), rfl, onlyD_complete s rd _, ?_⟩
    rw [hmod]
    exact ⟨toWord_modulo_lt _ (by omega), modNeg_add_mod _ (by omega)⟩
  · refine ⟨_, modRed (s.readD ra) (s.modulus m), rfl, onlyD_complete s rd _, ?_⟩
    rw [hmod]
    exact modRed_toNat _ (by omega)

/-! ### The commands of the Montgomery multiplier -/

/-- Settles O13: R cancels the factor Rinv of MONTMUL's value. -/
theorem montmulWritesTheMontgomeryProduct : Obligations.MontmulWritesTheMontgomeryProduct := by
  intro s m rd ra rb hwf
  obtain ⟨M, hmod, hM, hodd⟩ := exists_word_modulus hwf m
  refine ⟨_, montMul (s.readD ra) (s.readD rb) (s.modulus m), rfl, onlyD_complete s rd _, ?_⟩
  rw [hmod]
  exact ⟨toWord_modulo_lt _ (by omega), montRadix_mul_montMul_modEq hM hodd _ _⟩

/-- Settles O14: MMUL commits the residue of the product. -/
theorem mmulWritesTheProduct : Obligations.MmulWritesTheProduct := by
  intro s m rd ra rb hwf
  obtain ⟨M, hmod, hM, _⟩ := exists_word_modulus hwf m
  refine ⟨_, modMul (s.readD ra) (s.readD rb) (s.modulus m), rfl, onlyD_complete s rd _, ?_⟩
  rw [hmod]
  exact modMul_toNat _ _ (by omega)

/-- Settles O15: TOMONT commits the residue of a R, and R cancels the factor Rinv of FROMMONT's
value. -/
theorem tomontAndFrommontConvert : Obligations.TomontAndFrommontConvert := by
  intro s m rd ra hwf
  obtain ⟨M, hmod, hM, hodd⟩ := exists_word_modulus hwf m
  constructor
  · refine ⟨_, toMont (s.readD ra) (s.modulus m), rfl, onlyD_complete s rd _, ?_⟩
    rw [hmod]
    exact toMont_toNat _ (by omega)
  · refine ⟨_, fromMont (s.readD ra) (s.modulus m), rfl, onlyD_complete s rd _, ?_⟩
    rw [hmod]
    exact ⟨toWord_modulo_lt _ (by omega), montRadix_mul_fromMont_modEq hM hodd _⟩

/-! ### Laws of the field arithmetic -/

/-- MINV reads its operand's residue alone (R132). -/
theorem modInv_congr {a b : Word} {m : Nat} (h : a.toNat ≡ b.toNat [MOD m]) :
    modInv a m = modInv b m := by
  rw [modInv, modInv, modulo_congr (Int.natCast_modEq_iff.2 h)]

/-- Settles O17: each result depends on its operands' residues alone. -/
theorem fieldResultsIgnoreReduction : Obligations.FieldResultsIgnoreReduction := by
  intro a b M hM
  have ha := (modRed_modEq a (M := M) (by omega)).symm
  have hb := (modRed_modEq b (M := M) (by omega)).symm
  have haInt := Int.natCast_modEq_iff.2 ha
  have hbInt := Int.natCast_modEq_iff.2 hb
  exact ⟨toWord_modulo_congr (haInt.add hbInt), toWord_modulo_congr (haInt.sub hbInt),
    toWord_modulo_congr (haInt.sub_left 0), toWord_modulo_congr haInt,
    toWord_modulo_congr_nat ((ha.mul hb).mul_right _), toWord_modulo_congr_nat (ha.mul hb),
    toWord_modulo_congr_nat (ha.mul_right _), toWord_modulo_congr_nat (ha.mul_right _),
    modInv_congr ha⟩

/-- The response of R226 is MSUB.n of r and MMUL.n of k and e (R134). -/
theorem resp_eq_modSub_modMul {c : Curve} (hn : 0 < c.n.toNat) (r k e : Word) :
    resp c r k e = modSub r (modMul k e c.n.toNat) c.n.toNat := by
  refine toWord_modulo_congr (Int.ModEq.sub_left _ ?_)
  rw [modMul_toNat k e hn, Int.natCast_mod, Nat.cast_mul]
  exact (Int.mod_modEq _ _).symm

/-- Settles O18: the conversions cancel as R Rinv = 1, and a product may be reduced before it is
subtracted. -/
theorem montgomeryAndResponseLaws : Obligations.MontgomeryAndResponseLaws := by
  refine ⟨fun a M hM hodd => ?_, fun c r k e hwf => ?_⟩
  · exact ⟨fromMont_toMont hM hodd a, toMont_fromMont hM hodd a, fromMont_eq_montMul a _⟩
  · obtain ⟨_, _, _, hn, _⟩ := curveWf_bounds hwf
    exact resp_eq_modSub_modMul (by omega) r k e

end Sys2Proof.Proofs
end

section
/-! SUPPORT. What a command completes with, by its result; the cases of R174 and R176 one by one over
any well-formed CURVE; and the statements on the point commands and the group law (R163 to R180)
settled with them. -/

namespace Sys2Proof.Proofs

open Sys2Proof.Machine Sys2Proof.Laws

/-! ### A command that makes no draw, by its result -/

section
variable {s : State} {i : Instr} (hdraw : makesDraw i = false)
include hdraw

theorem exec_of_result {r : Result} (h : commandResult s i = r) :
    exec i s = .next (s.complete r) := by
  rw [exec_eq_complete, drawState, hdraw, h]
  rfl

theorem exec_onlyD {rd : DReg} {v : Word} (h : commandResult s i = .ok (commitD rd v)) :
    ∃ t, exec i s = .next t ∧ OnlyD s t rd v :=
  ⟨_, exec_of_result hdraw h, onlyD_complete s rd v⟩

theorem exec_onlyP {pd : PReg} {P : Point} (h : commandResult s i = .ok (commitP pd P)) :
    ∃ t, exec i s = .next t ∧ OnlyP s t pd P :=
  ⟨_, exec_of_result hdraw h, onlyP_complete s pd P⟩

theorem exec_onlyFlag {b : Bool} (h : commandResult s i = .ok (commitFlag b)) :
    ∃ t, exec i s = .next t ∧ OnlyFlag s t b :=
  ⟨_, exec_of_result hdraw h, onlyFlag_complete s b⟩

theorem exec_onlyError {e : CmdError} (h : commandResult s i = .error e) :
    ∃ t, exec i s = .next t ∧ OnlyError s t e ∧ t.errcode = e.code ∧ NoDraw s t := by
  obtain ⟨herr, hnodraw⟩ := onlyError_complete s e
  exact ⟨_, exec_of_result hdraw h, herr, rfl, hnodraw⟩

end

/-! ### PADD and PDBL, by what ptAdd and ptDbl answer -/

section
variable {s : State} {pd ps qs : PReg} {P Q R : Point}

theorem exec_padd_of_ok (hP : s.readP ps = P) (hQ : s.readP qs = Q)
    (h : ptAdd s.cfg.curve P Q = .ok R) :
    ∃ t, exec (.padd pd ps qs) s = .next t ∧ OnlyP s t pd R :=
  exec_onlyP rfl (by rw [commandResult, hP, hQ, h, pointResult])

theorem exec_padd_of_error {e : CmdError} (hP : s.readP ps = P) (hQ : s.readP qs = Q)
    (h : ptAdd s.cfg.curve P Q = .error e) :
    ∃ t, exec (.padd pd ps qs) s = .next t ∧ OnlyError s t e ∧ t.errcode = e.code ∧ NoDraw s t :=
  exec_onlyError rfl (by rw [commandResult, hP, hQ, h, pointResult])

theorem exec_pdbl_of_ok (hP : s.readP ps = P) (h : ptDbl s.cfg.curve P = .ok R) :
    ∃ t, exec (.pdbl pd ps) s = .next t ∧ OnlyP s t pd R :=
  exec_onlyP rfl (by rw [commandResult, hP, h, pointResult])

theorem exec_pdbl_of_error {e : CmdError} (hP : s.readP ps = P)
    (h : ptDbl s.cfg.curve P = .error e) :
    ∃ t, exec (.pdbl pd ps) s = .next t ∧ OnlyError s t e ∧ t.errcode = e.code ∧ NoDraw s t :=
  exec_onlyError rfl (by rw [commandResult, hP, h, pointResult])

end

/-! ### Loading, moving, reading and testing points -/

theorem ploadResult_of_onCurve {c : Curve} {x y : Word} (pd : PReg) (h : onCurve c x y = true) :
    ploadResult c pd x y = .ok (commitP pd (.aff (modRed x c.p.toNat) (modRed y c.p.toNat))) :=
  if_pos h

theorem ploadResult_of_not_onCurve {c : Curve} {x y : Word} (pd : PReg)
    (h : ¬ onCurve c x y = true) : ploadResult c pd x y = .error .validation :=
  if_neg h

theorem flagIsInf_eq_decide (P : Point) : flagIsInf P = decide (P = .inf) := by
  cases P <;> rfl

/-- Settles O20: PLOAD's test is the equation of residues, and what it commits are MRED's residues. -/
theorem ploadValidatesAndReduces : Obligations.PloadValidatesAndReduces := by
  intro s pd rx ry hwf x y p ok
  obtain ⟨hp, _⟩ := curveWf_bounds hwf
  have hok : onCurve s.cfg.curve x y = true ↔ ok := onCurve_iff_mod (by omega) x y
  constructor
  · intro h
    obtain ⟨t, ht, hP⟩ :=
      exec_onlyP (i := .pload pd rx ry) rfl (ploadResult_of_onCurve pd (hok.2 h))
    exact ⟨t, _, _, ht, hP, modRed_toNat x (by omega), modRed_toNat y (by omega)⟩
  · intro h
    exact exec_onlyError rfl (ploadResult_of_not_onCurve pd (mt hok.1 h))

/-- Settles O21: each of the three commits its one point. -/
theorem pointMoves : Obligations.PointMoves := fun _ _ _ =>
  ⟨exec_onlyP rfl rfl, exec_onlyP rfl rfl, exec_onlyP rfl rfl⟩

/-- Settles O22: the result of PGETX and PGETY by the form of the point. -/
theorem coordinateReads : Obligations.CoordinateReads := by
  intro s rd ps
  refine ⟨fun x y h => ⟨?_, ?_⟩, fun h => ⟨?_, ?_⟩⟩
  · exact exec_onlyD rfl (congrArg (pgetxResult rd) h)
  · exact exec_onlyD rfl (congrArg (pgetyResult rd) h)
  · obtain ⟨t, ht, herr, hcode, _⟩ :=
      exec_onlyError (i := .pgetx rd ps) rfl (congrArg (pgetxResult rd) h)
    exact ⟨t, ht, herr, hcode⟩
  · obtain ⟨t, ht, herr, hcode, _⟩ :=
      exec_onlyError (i := .pgety rd ps) rfl (congrArg (pgetyResult rd) h)
    exact ⟨t, ht, herr, hcode⟩

/-- Settles O23: the two tests decide equality of stored values. -/
theorem pointTestsWriteFlag : Obligations.PointTestsWriteFlag := by
  intro s ps qs
  rw [← flagIsInf_eq_decide, ← ptEq_eq_decide]
  exact ⟨exec_onlyFlag rfl rfl, exec_onlyFlag rfl rfl⟩

/-- Settles O24: PNEG commits MNEG's residue of y beside x. -/
theorem pnegNegatesY : Obligations.PnegNegatesY := by
  intro s pd ps hwf
  obtain ⟨hp, _⟩ := curveWf_bounds hwf
  have hneg {P : Point} (h : s.readP ps = P) :
      ∃ t, exec (.pneg pd ps) s = .next t ∧ OnlyP s t pd (ptNeg s.cfg.curve P) :=
    exec_onlyP rfl (by rw [commandResult, h])
  refine ⟨fun h => hneg h, fun x y h => ?_⟩
  obtain ⟨t, ht, hP⟩ := hneg h
  exact ⟨t, _, ht, hP, toWord_modulo_lt _ (by omega), modNeg_add_mod y (by omega)⟩

/-! ### The cases of R174 and R176 -/

@[simp] theorem ptAdd_inf_left (c : Curve) (Q : Point) : ptAdd c .inf Q = .ok Q := by
  cases Q <;> rfl

@[simp] theorem ptAdd_inf_right (c : Curve) (P : Point) : ptAdd c P .inf = .ok P := by
  cases P <;> rfl

theorem ptDbl_aff_zero (c : Curve) (x : Word) : ptDbl c (.aff x 0#256) = .error .arithmetic := by
  have hd : modulo (2 * ((0#256 : Word).toNat : Int)) c.p.toNat = 0 := by simp [modulo]
  simp only [ptDbl, hd, if_true]

/-- The tangent, where 2 y has an inverse (R176). -/
theorem ptDbl_of_coprime {c : Curve} (hp : 3 ≤ c.p.toNat) {x y : Word}
    (h : Nat.gcd (2 * y.toNat) c.p.toNat = 1) :
    ∃ x3 y3, ptDbl c (.aff x y) = .ok (.aff x3 y3) ∧
      SlopeResult c (3 * x.toNat * x.toNat + c.a.toNat) (2 * y.toNat) x y x x3 y3 := by
  have hg : Int.gcd (2 * (y.toNat : Int)) c.p.toNat = 1 := by exact_mod_cast h
  obtain ⟨hd, hlam⟩ := slope_spec hp (num := 3 * x.toNat * x.toNat + c.a.toNat) hg
  obtain ⟨x3, y3, hchord, hslope⟩ := chord_slopeResult hp _ x y x hlam
  refine ⟨x3, y3, ?_, hslope⟩
  rw [← hchord]
  exact if_neg hd

/-- The test of case 2 of R174 on any two words. -/
theorem toNat_eq_modulo_neg_iff {p : Nat} (hp : 0 < p) (a b : Nat) :
    a = modulo (0 - (b : Int)) p ↔ a < p ∧ (a + b) % p = 0 :=
  ⟨fun h => have ha : a < p := h ▸ modulo_lt _ hp
    ⟨ha, (eq_modulo_neg_iff hp ha).1 h⟩, fun ⟨ha, h⟩ => (eq_modulo_neg_iff hp ha).2 h⟩

section
variable {c : Curve} {x1 y1 x2 y2 : Word}

/-- Case 2 of R174. -/
theorem ptAdd_of_opposite {x : Word} (hy : y1.toNat < c.p.toNat)
    (h : (y1.toNat + y2.toNat) % c.p.toNat = 0) : ptAdd c (.aff x y1) (.aff x y2) = .ok .inf :=
  if_pos ⟨rfl, (toNat_eq_modulo_neg_iff (by omega) _ _).2 ⟨hy, h⟩⟩

/-- Case 3 of R174. -/
theorem ptAdd_self_of_not_opposite {x y : Word} (hp : 0 < c.p.toNat)
    (h : (y.toNat + y.toNat) % c.p.toNat ≠ 0) :
    ptAdd c (.aff x y) (.aff x y) = ptDbl c (.aff x y) := by
  have hopp : ¬ (x = x ∧ y.toNat = modulo (0 - (y.toNat : Int)) c.p.toNat) :=
    fun ⟨_, he⟩ => h ((toNat_eq_modulo_neg_iff hp _ _).1 he).2
  exact (if_neg hopp).trans (if_pos ⟨rfl, rfl⟩)

/-- The chord of case 4 of R174, where x2 - x1 has an inverse. -/
theorem ptAdd_of_coprime (hp : 3 ≤ c.p.toNat)
    (h : Int.gcd ((x2.toNat : Int) - x1.toNat) c.p.toNat = 1) :
    ∃ x3 y3, ptAdd c (.aff x1 y1) (.aff x2 y2) = .ok (.aff x3 y3) ∧
      SlopeResult c ((y2.toNat : Int) - y1.toNat) ((x2.toNat : Int) - x1.toNat)
        x1 y1 x2 x3 y3 := by
  have hx : x1 ≠ x2 := by
    rintro rfl
    rw [sub_self, Int.gcd_zero_left, Int.natAbs_natCast] at h
    omega
  obtain ⟨hd, hlam⟩ := slope_spec hp (num := (y2.toNat : Int) - y1.toNat) h
  obtain ⟨x3, y3, hchord, hslope⟩ := chord_slopeResult hp _ x1 y1 x2 hlam
  refine ⟨x3, y3, ?_, hslope⟩
  rw [← hchord]
  simp only [ptAdd, hx, false_and, if_false, if_neg hd]

/-- The guard of case 4 of R174. -/
theorem ptAdd_of_zero_denominator (hp : 0 < c.p.toNat)
    (hx : x1.toNat % c.p.toNat = x2.toNat % c.p.toNat)
    (h : ¬ (x1 = x2 ∧ (y1 = y2 ∨
      (y1.toNat < c.p.toNat ∧ (y1.toNat + y2.toNat) % c.p.toNat = 0)))) :
    ptAdd c (.aff x1 y1) (.aff x2 y2) = .error .arithmetic := by
  have hopp : ¬ (x1 = x2 ∧ y1.toNat = modulo (0 - (y2.toNat : Int)) c.p.toNat) :=
    fun ⟨he, hy⟩ => h ⟨he, .inr ((toNat_eq_modulo_neg_iff hp _ _).1 hy)⟩
  have heq : ¬ (x1 = x2 ∧ y1 = y2) := fun ⟨he, hy⟩ => h ⟨he, .inl hy⟩
  have hd : modulo ((x2.toNat : Int) - x1.toNat) c.p.toNat = 0 := by
    have hmod : (x1.toNat : Int) ≡ x2.toNat [ZMOD c.p.toNat] := Int.natCast_modEq_iff.2 hx
    rw [modulo, Int.emod_eq_zero_of_dvd hmod.dvd, Int.toNat_zero]
  exact (if_neg hopp).trans ((if_neg heq).trans (if_pos hd))

end

/-! ### PADD and PDBL -/

/-- Settles O25: cases 1 and 2 of R174. -/
theorem paddIdentityAndInverse : Obligations.PaddIdentityAndInverse := by
  intro s pd ps qs
  refine ⟨fun hP => ?_, fun hQ => ?_, fun x y1 y2 hP hQ hlt hopp => ?_⟩
  · exact exec_padd_of_ok hP rfl (ptAdd_inf_left _ _)
  · exact exec_padd_of_ok rfl hQ (ptAdd_inf_right _ _)
  · exact exec_padd_of_ok hP hQ (ptAdd_of_opposite hlt hopp)

/-- Settles O26: the tangent, since a point whose 2 y has an inverse is not its own opposite, and the
chord. -/
theorem paddTangentAndChord : Obligations.PaddTangentAndChord := by
  intro s pd ps qs x1 y1 x2 y2 hwf hP hQ
  obtain ⟨hp, _⟩ := curveWf_bounds hwf
  constructor
  · rintro rfl rfl hg
    obtain ⟨x3, y3, hdbl, hslope⟩ := ptDbl_of_coprime hp (x := x1) hg
    have hopp : (y1.toNat + y1.toNat) % s.cfg.curve.p.toNat ≠ 0 := by
      rw [← two_mul]
      exact fun h => gcd_ne_one_of_mod_eq_zero (by omega) h hg
    obtain ⟨t, ht, hR⟩ :=
      exec_padd_of_ok hP hQ ((ptAdd_self_of_not_opposite (by omega) hopp).trans hdbl)
    exact ⟨t, x3, y3, ht, hR, hslope⟩
  · intro hg
    obtain ⟨x3, y3, hadd, hslope⟩ := ptAdd_of_coprime hp hg
    obtain ⟨t, ht, hR⟩ := exec_padd_of_ok hP hQ hadd
    exact ⟨t, x3, y3, ht, hR, hslope⟩

/-- Settles O27: the guard of case 4 of R174. -/
theorem paddFailsOnZeroDenominator : Obligations.PaddFailsOnZeroDenominator := by
  intro s pd ps qs x1 y1 x2 y2 hwf hP hQ hx h
  obtain ⟨hp, _⟩ := curveWf_bounds hwf
  obtain ⟨t, ht, herr, hcode, _⟩ :=
    exec_padd_of_error hP hQ (ptAdd_of_zero_denominator (by omega) hx h)
  exact ⟨t, ht, herr, hcode⟩

/-- Settles O28: the three cases of R176. -/
theorem pdblDoubles : Obligations.PdblDoubles := by
  intro s pd ps hwf
  obtain ⟨hp, _⟩ := curveWf_bounds hwf
  refine ⟨fun hP => exec_pdbl_of_ok hP rfl, fun x y hP hg => ?_, fun x hP => ?_⟩
  · obtain ⟨x3, y3, hdbl, hslope⟩ := ptDbl_of_coprime hp hg
    obtain ⟨t, ht, hR⟩ := exec_pdbl_of_ok hP hdbl
    exact ⟨t, x3, y3, ht, hR, hslope⟩
  · obtain ⟨t, ht, herr, hcode, _⟩ := exec_pdbl_of_error hP (ptDbl_aff_zero _ x)
    exact ⟨t, ht, herr, hcode⟩

/-! ### The group laws on valid points -/

/-- Modulo an odd p only 0 is its own opposite. -/
theorem add_self_mod_ne_zero {p a : Nat} (hp : p % 2 = 1) (h0 : a ≠ 0) (ha : a < p) :
    (a + a) % p ≠ 0 := by
  intro h
  have hdvd : p ∣ 2 * a := two_mul a ▸ Nat.dvd_of_mod_eq_zero h
  have hcop : Nat.Coprime p 2 := Nat.coprime_two_right.2 (Nat.odd_iff.2 hp)
  exact h0 (Nat.eq_zero_of_dvd_of_lt (hcop.dvd_of_dvd_mul_left hdvd) ha)

/-- A reduced point and its negation are opposite. -/
theorem ptAdd_ptNeg {c : Curve} (hp : 0 < c.p.toNat) {P : Point} (hP : pointValid c P = true) :
    ptAdd c P (ptNeg c P) = .ok .inf := by
  rcases P with _ | ⟨x, y⟩
  · rfl
  · obtain ⟨_, hy, _⟩ := (pointValid_aff hp x y).1 hP
    refine ptAdd_of_opposite hy ?_
    rw [Nat.add_comm]
    exact modNeg_add_mod y hp

/-- Settles O29: a valid point's y is below p, and modulo an odd p it is its own opposite only as
0. -/
theorem groupLawsOnValidPoints : Obligations.GroupLawsOnValidPoints := by
  intro c P hwf hP
  obtain ⟨hp, hodd, _⟩ := curveWf_bounds hwf
  refine ⟨ptAdd_ptNeg (by omega) hP, ptAdd_inf_right c P, ptAdd_inf_left c P, ?_, ?_⟩
  · rintro x y rfl hy
    obtain ⟨_, hlt, _⟩ := (pointValid_aff (by omega) x y).1 hP
    have h0 : y.toNat ≠ 0 := fun h => hy (BitVec.eq_of_toNat_eq h)
    exact (ptAdd_self_of_not_opposite (by omega) (add_self_mod_ne_zero hodd h0 hlt)).symm
  · rintro x rfl
    refine ⟨ptAdd_of_opposite ?_ (Nat.zero_mod _), ptDbl_aff_zero c x⟩
    show 0 < c.p.toNat
    omega

/-- Two points of the curve with one x have equal or opposite y: p is prime, so the field has no zero
divisors. -/
theorem eq_or_eq_neg_of_equation {c : Curve} [Fact (Nat.Prime c.p.toNat)]
    {x y1 y2 : ZMod c.p.toNat} (h1 : (weierstrass c).Equation x y1)
    (h2 : (weierstrass c).Equation x y2) : y1 = y2 ∨ y1 = - y2 := by
  rw [weierstrass_equation] at h1 h2
  exact sq_eq_sq_iff_eq_or_eq_neg.1 (h1.trans h2.symm)

/-- R180: the sum of two valid points exists, whether the curve is singular or not. -/
theorem exists_ptAdd_ok {c : Curve} (hp : Nat.Prime c.p.toNat) {P Q : Point}
    (hP : pointValid c P = true) (hQ : pointValid c Q = true) : ∃ R, ptAdd c P Q = .ok R := by
  have := Fact.mk hp
  rcases P with _ | ⟨x1, y1⟩
  · exact ⟨Q, ptAdd_inf_left c Q⟩
  rcases Q with _ | ⟨x2, y2⟩
  · exact ⟨_, ptAdd_inf_right c _⟩
  obtain ⟨hx1, hy1, h1⟩ := (pointValid_aff hp.pos x1 y1).1 hP
  obtain ⟨hx2, hy2, h2⟩ := (pointValid_aff hp.pos x2 y2).1 hQ
  rcases ptAdd_aff hp hx1 hy1 hx2 hy2 with ⟨_, _, hadd⟩ | ⟨_, hopp, rfl, _, hadd⟩ |
    ⟨hx, hopp, hne, _⟩ | ⟨_, x3, y3, hadd, _⟩
  · exact ⟨_, hadd⟩
  · rcases ptDbl_aff hp x1 y1 with ⟨h0, _⟩ | ⟨_, x3, y3, hdbl, _⟩
    · exact absurd (by linear_combination h0) hopp
    · exact ⟨_, hadd.trans hdbl⟩
  · rw [hx] at h1
    rcases eq_or_eq_neg_of_equation h1 h2 with h | h
    · exact absurd h hne
    · exact absurd h hopp
  · exact ⟨_, hadd⟩

/-- Settles O30: equal x leave equal or opposite points of the curve, so case 4 of R174 has a
denominator that is not 0. -/
theorem paddIsTotalOnValidPoints : Obligations.PaddIsTotalOnValidPoints := by
  intro c P Q hp _ hP hQ
  obtain ⟨R, hR⟩ := exists_ptAdd_ok hp hP hQ
  exact ⟨R, hR, ptAdd_valid hp hP hQ hR⟩

end Sys2Proof.Proofs
end

section
/-! SUPPORT. The loop of smul read from the last bit of the scalar back, its corner cases, and the
multiples of a point with an odd order; and the statements on scalar multiplication (R200 to R203)
settled with them. -/

namespace Sys2Proof.Proofs

open Sys2Proof.Machine Sys2Proof.Laws

/-! ### One turn of the loop -/

/-- One turn of the loop of smul: double Q, and add P where the bit is set (R200). -/
def smulStep (c : Curve) (P : Point) (bit : Bool) (Q : Point) : Except CmdError Point :=
  match ptDbl c Q with
  | .error e => .error e
  | .ok Q2 => if bit then ptAdd c Q2 P else .ok Q2

/-- Doubling INF raises nothing and adds nothing. -/
@[simp] theorem smulStep_inf (c : Curve) (P : Point) (bit : Bool) :
    smulStep c P bit .inf = .ok (if bit then P else .inf) := by
  cases bit
  · rfl
  · exact ptAdd_inf_left c P

/-- The loop makes the turn of bit i first. -/
theorem smulLoop_succ (c : Curve) (k : Word) (P : Point) (i : Nat) (Q : Point) :
    smulLoop c k P (i + 1) Q = smulStep c P (k.getLsbD i) Q >>= smulLoop c k P i := by
  rw [smulLoop, smulStep]
  rcases ptDbl c Q with e | Q2
  · rfl
  dsimp only
  cases k.getLsbD i with
  | false => rfl
  | true => rw [if_pos rfl, if_pos rfl]; rcases ptAdd c Q2 P with e | Q3 <;> rfl

/-- The loop makes the turn of bit 0 last: before it stand the turns of k / 2. -/
theorem smulLoop_succ_last (c : Curve) (k : Word) (P : Point) (i : Nat) (Q : Point) :
    smulLoop c k P (i + 1) Q = smulLoop c (k >>> 1) P i Q >>= smulStep c P (k.getLsbD 0) := by
  induction i generalizing Q with
  | zero => rw [smulLoop_succ]; exact bind_pure _
  | succ i ih =>
    have hbit : (k >>> 1).getLsbD i = k.getLsbD (i + 1) := by
      rw [BitVec.getLsbD_ushiftRight, Nat.add_comm]
    rw [smulLoop_succ, smulLoop_succ, hbit, bind_assoc]
    exact congrArg _ (funext ih)

/-- Turns that add nothing, for a 0 bit or for P = INF, stay at INF. -/
theorem smulLoop_inf {c : Curve} {k : Word} {P : Point}
    (h : ∀ j, (if k.getLsbD j then P else .inf) = .inf) (i : Nat) :
    smulLoop c k P i .inf = .ok .inf := by
  induction i with
  | zero => rfl
  | succ i ih => rw [smulLoop_succ, smulStep_inf, h]; exact ih

/-! ### smul by the last bit, and its corner cases -/

/-- smul of k is one more turn after smul of k / 2, whose bit 255 is 0. -/
theorem smul_eq_smul_half (c : Curve) (k : Word) (P : Point) :
    smul c k P = smul c (k >>> 1) P >>= smulStep c P (k.getLsbD 0) := by
  have htop : (k >>> 1).getLsbD 255 = false := by
    rw [BitVec.getLsbD_ushiftRight]
    exact BitVec.getLsbD_of_ge k 256 le_rfl
  have hhalf : smul c (k >>> 1) P = smulLoop c (k >>> 1) P 255 .inf := by
    rw [smul, smulLoop_succ, htop, smulStep_inf]
    rfl
  rw [hhalf, smul, smulLoop_succ_last]

@[simp] theorem smul_scalar_zero (c : Curve) (P : Point) : smul c 0#256 P = .ok .inf :=
  smulLoop_inf (fun j => by rw [BitVec.getLsbD_zero]; rfl) 256

@[simp] theorem smul_point_inf (c : Curve) (k : Word) : smul c k .inf = .ok .inf :=
  smulLoop_inf (fun _ => ite_self _) 256

@[simp] theorem smul_scalar_one (c : Curve) (P : Point) : smul c 1#256 P = .ok P := by
  have hhalf : 1#256 >>> 1 = 0#256 := by decide
  rw [smul_eq_smul_half, hhalf, smul_scalar_zero]
  exact smulStep_inf c P true

/-- Settles O31: PMUL's result is smul's answer, and the one error of smul is ARITHMETIC. -/
theorem pmulWritesTheMultiple : Obligations.PmulWritesTheMultiple := by
  intro s pd rk ps
  refine ⟨fun R hR => exec_onlyP rfl (congrArg (pointResult pd) hR), fun e he => ?_⟩
  obtain rfl := smul_error he
  obtain ⟨t, ht, herr, hcode, _⟩ :=
    exec_onlyError (i := .pmul pd rk ps) rfl (congrArg (pointResult pd) he)
  exact ⟨rfl, t, ht, herr, hcode⟩

/-- Settles O32: the last turn of the loop is that of bit 0. -/
theorem smulDoublesAndAdds : Obligations.SmulDoublesAndAdds := by
  intro c k P
  rw [smul_eq_smul_half]
  rcases smul c (k >>> 1) P with e | Q <;> rfl

/-- Settles O33: k = 0 and P = INF add nothing in any turn, and k = 1 only in the last. -/
theorem smulCornerCases : Obligations.SmulCornerCases := fun c k P =>
  ⟨smul_scalar_zero c P, smul_scalar_one c P, smul_point_inf c k⟩

/-! ### Scalars modulo the order -/

/-- Scalars that agree modulo an odd n with n A = 0 have one multiple (R202). -/
theorem smul_eq_of_modEq {c : Curve} [Fact (Nat.Prime c.p.toNat)] {P : Point}
    {A : (weierstrass c).Point} (hP : Stands c P A) {n : Nat} (hn : n % 2 = 1) (hA : n • A = 0)
    {j k : Word} (h : j.toNat ≡ k.toNat [MOD n]) : smul c j P = smul c k P := by
  obtain ⟨R, hR⟩ := smul_total j hP hn hA
  obtain ⟨S, hS⟩ := smul_total k hP hn hA
  have hmul : j.toNat • A = k.toNat • A := by
    rw [nsmul_eq_mod_nsmul j.toNat hA, nsmul_eq_mod_nsmul k.toNat hA, h]
  have hRk : Stands c R (k.toNat • A) := hmul ▸ Stands_smul hP hR
  rw [hR, hS, Stands_inj hRk (Stands_smul hP hS)]

/-- In the setting of the group laws G stands for a point that n takes to 0. -/
theorem exists_Stands_basePoint {c : Curve} [Fact (Nat.Prime c.p.toNat)]
    (h : primeOrderCurve c) :
    ∃ A : (weierstrass c).Point, Stands c (basePoint c) A ∧ c.n.toNat • A = 0 := by
  obtain ⟨hp, hwf, hns, hnG⟩ := h
  obtain ⟨_, hodd, _⟩ := curveWf_bounds hwf
  obtain ⟨A, hA⟩ := exists_Stands hp hodd hns (basePoint_valid hwf)
  exact ⟨A, hA, Stands_smul hA hnG⟩

/-- Settles O34: k and its residue agree modulo the odd n, and n G = INF. -/
theorem scalarMayBeReducedModOrder : Obligations.ScalarMayBeReducedModOrder := by
  intro c k h
  have := Fact.mk h.1
  obtain ⟨A, hG, hA⟩ := exists_Stands_basePoint h
  obtain ⟨_, hwf, _⟩ := h
  obtain ⟨_, _, _, hn, hodd, _⟩ := curveWf_bounds hwf
  exact ⟨smul_total k hG hodd hA,
    smul_eq_of_modEq hG hodd hA (modRed_modEq k (by omega)).symm⟩

end Sys2Proof.Proofs
end

section
/-! SUPPORT. The result of SIGN case by case, the two registers it commits, and the signature law in
the group of the base point; and the statements on PUBKEY, SIGN and VERIFY (R222 to R235) settled
with them. -/

namespace Sys2Proof.Proofs

open Sys2Proof.Machine Sys2Proof.Laws

/-! ### PUBKEY -/

/-- Settles O36: PUBKEY's result is the answer of smul for the raw key. -/
theorem pubkeyWritesThePublicPoint : Obligations.PubkeyWritesThePublicPoint := by
  intro s pd rk
  refine ⟨fun K hK => exec_onlyP rfl (congrArg (pointResult pd) hK), fun e he => ?_⟩
  obtain rfl := smul_error he
  obtain ⟨t, ht, herr, _⟩ :=
    exec_onlyError (i := .pubkey pd rk) rfl (congrArg (pointResult pd) he)
  exact ⟨t, ht, herr⟩

/-! ### The response -/

theorem resp_lt {c : Curve} (hn : 0 < c.n.toNat) (r k e : Word) :
    (resp c r k e).toNat < c.n.toNat := toWord_modulo_lt _ hn

/-- The response gives back the nonce when k e is added (R226). -/
theorem resp_add_modEq {c : Curve} (hn : 0 < c.n.toNat) (r k e : Word) :
    (resp c r k e).toNat + k.toNat * e.toNat ≡ r.toNat [MOD c.n.toNat] := by
  rw [resp_eq_modSub_modMul hn]
  have hmul : (modMul k e c.n.toNat).toNat ≡ k.toNat * e.toNat [MOD c.n.toNat] := by
    rw [modMul_toNat k e hn]
    exact Nat.mod_modEq _ _
  exact (hmul.symm.add_left _).trans (modSub_add_modEq r _ hn)

/-! ### SIGN, by what its draw gives -/

theorem signResult_of_le {c : Curve} {r : Word} (rs re : DReg) (k m : Word)
    (h : c.n.toNat ≤ r.toNat) : signResult c rs re k m r = .error .rng := if_pos h

theorem signResult_of_aff {c : Curve} {r x y : Word} (rs re : DReg) (k m : Word)
    (hr : r.toNat < c.n.toNat) (h : smul c r (basePoint c) = .ok (.aff x y)) :
    signResult c rs re k m r = .ok ⟨[(rs, resp c r k (m ^^^ x)), (re, m ^^^ x)], [], none⟩ := by
  rw [signResult, if_neg (by omega), h]
  rfl

/-- Both an error of smul and R = INF end SIGN with ARITHMETIC (R228). -/
theorem signResult_of_not_aff {c : Curve} {r : Word} (rs re : DReg) (k m : Word)
    (hr : r.toNat < c.n.toNat) (h : ∀ x y, smul c r (basePoint c) ≠ .ok (.aff x y)) :
    signResult c rs re k m r = .error .arithmetic := by
  rw [signResult, if_neg (by omega)]
  rcases hR : smul c r (basePoint c) with e | _ | ⟨x, y⟩
  · rw [smul_error hR]
  · rfl
  · exact absurd hR (h x y)

section
variable {s : State} {rs re rk rm : DReg}

/-- With s and e in different registers SIGN uses up one answer of the port and completes with its
result (R228). -/
theorem exec_sign_of_result (hne : rs ≠ re) {r : Result}
    (h : signResult s.cfg.curve rs re (s.readD rk) (s.readD rm) s.drawn = r) :
    exec (.sign rs re rk rm) s = .next (s.afterDraw.complete r) := by
  rw [exec_eq_complete, commandResult, if_neg hne, h, drawState, makesDraw,
    if_pos (bne_iff_ne.2 hne)]

theorem exec_sign_onlyError (hne : rs ≠ re) {e : CmdError}
    (h : signResult s.cfg.curve rs re (s.readD rk) (s.readD rm) s.drawn = .error e) :
    ∃ t, exec (.sign rs re rk rm) s = .next t ∧ OnlyError s t e ∧ OneDraw s t :=
  ⟨_, exec_sign_of_result hne h, onlyError_afterDraw s e⟩

end

/-- A completion that commits two data registers. -/
theorem complete_twoD (s : State) (r1 r2 : DReg) (v1 v2 : Word) :
    s.complete (.ok ⟨[(r1, v1), (r2, v2)], [], none⟩) =
      ((s.writeD r1 v1).writeD r2 v2).endCommand 0#4 := rfl

/-- Settles O37: SIGN commits the response and the challenge to two different registers, after one
draw. -/
theorem signWritesTheSignature : Obligations.SignWritesTheSignature := by
  intro s rs re rk rm x y hwf hne hr hR
  obtain ⟨_, _, _, hn, _⟩ := curveWf_bounds hwf
  have hn0 : 0 < s.cfg.curve.n.toNat := by omega
  have hmod := resp_add_modEq hn0 s.drawn (s.readD rk) (s.readD rm ^^^ x)
  rw [Nat.ModEq, Nat.mod_eq_of_lt hr] at hmod
  refine ⟨_, resp s.cfg.curve s.drawn (s.readD rk) (s.readD rm ^^^ x),
    exec_sign_of_result hne (signResult_of_aff rs re _ _ hr hR), ?_⟩
  rw [complete_twoD]
  refine ⟨⟨rfl, rfl, rfl, rfl, rfl, rfl, rfl, rfl, rfl, rfl⟩, ?_, ?_, fun r hrs hre => ?_,
    fun _ => rfl, rfl, ⟨rfl, rfl⟩, resp_lt hn0 _ _ _, hmod⟩
  · rw [readD_endCommand, readD_writeD, if_neg hne, readD_writeD_self]
  · rw [readD_endCommand, readD_writeD_self]
  · rw [readD_endCommand, readD_writeD, if_neg hre, readD_writeD, if_neg hrs, readD_afterDraw]

/-- Settles O38: the test of the destinations stands before the draw, and the tests of the result in
R258's order after it. -/
theorem signFailsInOrder : Obligations.SignFailsInOrder := by
  intro s rs re rk rm
  refine ⟨?_, fun hne hn => exec_sign_onlyError hne (signResult_of_le rs re _ _ hn),
    fun hne hr hR => exec_sign_onlyError hne (signResult_of_not_aff rs re _ _ hr hR)⟩
  rintro rfl
  obtain ⟨t, ht, herr, _, hdraw⟩ :=
    exec_onlyError (s := s) (i := .sign rs rs rk rm) (bne_self_eq_false rs) (if_pos rfl)
  exact ⟨t, ht, herr, hdraw⟩

/-! ### VERIFY -/

/-- Steps 1 to 5 of R234 as one condition. -/
theorem flagVerify_iff (c : Curve) (m : Word) (K : Point) (s e : Word) :
    flagVerify c m K s e = true ↔ ∃ U V x y, smul c s (basePoint c) = .ok U ∧
      smul c e K = .ok V ∧ ptAdd c U V = .ok (.aff x y) ∧ m ^^^ x = e := by
  constructor
  · intro h
    unfold flagVerify at h
    split at h
    · cases h
    next U hU =>
      split at h
      · cases h
      next V hV =>
        split at h
        · cases h
        · cases h
        next x y hR => exact ⟨U, V, x, y, hU, hV, hR, beq_iff_eq.1 h⟩
  · rintro ⟨U, V, x, y, hU, hV, hR, he⟩
    simp only [flagVerify, hU, hV, hR, he, beq_self_eq_true]

/-- Settles O39: VERIFY commits FLAG alone, with the value of R234's steps. -/
theorem verifyIsABoolean : Obligations.VerifyIsABoolean := fun s pk rm rs re =>
  have ⟨t, ht, hflag⟩ := exec_onlyFlag (s := s) (i := .verify pk rm rs re) rfl rfl
  ⟨t, _, ht, hflag, flagVerify_iff _ _ _ _ _⟩

/-! ### The signature law -/

theorem code_ne_zero (e : CmdError) : e.code ≠ 0#4 := by cases e <;> decide

/-- A SIGN that succeeded drew a nonce r with r G = Aff(x, y), and left m XOR x as e and an s with
s + k e = r modulo n (R228). -/
theorem exists_nonce_of_sign {s t : State} {rs re rk rm : DReg} (hwf : curveWf s.cfg.curve = true)
    (h : exec (.sign rs re rk rm) s = .next t) (h0 : t.errcode = 0#4) :
    ∃ x y, smul s.cfg.curve s.drawn (basePoint s.cfg.curve) = .ok (.aff x y) ∧
      t.readD re = s.readD rm ^^^ x ∧
      (t.readD rs).toNat + (s.readD rk).toNat * (t.readD re).toNat
        ≡ s.drawn.toNat [MOD s.cfg.curve.n.toNat] := by
  have eq_of_exec {u : State} (hu : exec (.sign rs re rk rm) s = .next u) : u = t :=
    Host.Outcome.next.inj (hu.symm.trans h)
  have not_onlyError {u : State} {e : CmdError} (hu : exec (.sign rs re rk rm) s = .next u)
      (hc : Completed s u e.code) : False := by
    obtain rfl := eq_of_exec hu
    exact code_ne_zero e (hc.errcode.symm.trans h0)
  obtain ⟨hillegal, hrng, harith⟩ := signFailsInOrder s rs re rk rm
  have hne : rs ≠ re := fun he =>
    have ⟨_, hu, ⟨hc, _⟩, _⟩ := hillegal he
    not_onlyError hu hc
  have hr : s.drawn.toNat < s.cfg.curve.n.toNat := not_le.1 fun hle =>
    have ⟨_, hu, ⟨hc, _⟩, _⟩ := hrng hne hle
    not_onlyError hu hc
  obtain ⟨x, y, hR⟩ :
      ∃ x y, smul s.cfg.curve s.drawn (basePoint s.cfg.curve) = .ok (.aff x y) := by
    by_contra hno
    obtain ⟨_, hu, ⟨hc, _⟩, _⟩ := harith hne hr fun x y hR => hno ⟨x, y, hR⟩
    exact not_onlyError hu hc
  obtain ⟨u, sig, hu, _, rfl, hre, _, _, _, _, _, hsum⟩ :=
    signWritesTheSignature s rs re rk rm x y hwf hne hr hR
  obtain rfl := eq_of_exec hu
  refine ⟨x, y, hR, hre, ?_⟩
  rw [hre, Nat.ModEq, hsum, Nat.mod_eq_of_lt hr]

/-- R235's reason: with s + k e = r modulo n, s G + e (k G) is r G, and no step on the way raises. -/
theorem ptAdd_smul_of_modEq {c : Curve} (h : primeOrderCurve c) {s e k r : Word} {K R : Point}
    (hK : smul c k (basePoint c) = .ok K) (hR : smul c r (basePoint c) = .ok R)
    (hmod : s.toNat + k.toNat * e.toNat ≡ r.toNat [MOD c.n.toNat]) :
    ∃ U V, smul c s (basePoint c) = .ok U ∧ smul c e K = .ok V ∧ ptAdd c U V = .ok R := by
  have := Fact.mk h.1
  obtain ⟨A, hG, hA⟩ := exists_Stands_basePoint h
  obtain ⟨_, hwf, _⟩ := h
  obtain ⟨_, _, _, _, hodd, _⟩ := curveWf_bounds hwf
  have hKA := Stands_smul hG hK
  have hnK : c.n.toNat • k.toNat • A = 0 := by rw [nsmul_left_comm, hA, nsmul_zero]
  obtain ⟨U, hU⟩ := smul_total s hG hodd hA
  obtain ⟨V, hV⟩ := smul_total e hKA hodd hnK
  obtain ⟨R2, hR2, hsum⟩ := Stands_ptAdd (Stands_smul hG hU) (Stands_smul hKA hV)
  have hmul : s.toNat • A + e.toNat • k.toNat • A = r.toNat • A := by
    rw [← mul_nsmul, ← add_nsmul, nsmul_eq_mod_nsmul _ hA, hmod, ← nsmul_eq_mod_nsmul _ hA]
  rw [hmul] at hsum
  obtain rfl := Stands_inj hsum (Stands_smul hG hR)
  exact ⟨U, V, hU, hV, hR2⟩

/-- Settles O40: VERIFY recomputes SIGN's r G, and so its challenge. -/
theorem signThenVerifyAccepts : Obligations.SignThenVerifyAccepts := by
  intro s t u rs re rk rm pk vm vs ve hc hsign h0 hcfg hK hvm hvs hve
  have ⟨_, hwf, _⟩ := hc
  obtain ⟨x, y, hR, he, hmod⟩ := exists_nonce_of_sign hwf hsign h0
  obtain ⟨U, V, hU, hV, hsum⟩ := ptAdd_smul_of_modEq hc hK hR hmod
  obtain ⟨u', b, hexec, ⟨hdone, _, _, hflag, _⟩, hb⟩ := verifyIsABoolean u pk vm vs ve
  rw [hcfg, hvm, hvs, hve] at hb
  exact ⟨u', hexec, hflag.trans (hb.2 ⟨U, V, x, y, hU, hV, hsum, he.symm⟩), hdone.errcode⟩

end Sys2Proof.Proofs
end

section
/-! SUPPORT. What a failed command leaves unchanged, and the statement that every command completes
precisely (R250, R259) settled with it. -/

namespace Sys2Proof.Proofs

open Sys2Proof.Machine Sys2Proof.Laws

/-! ### Precise errors -/

theorem readD_of_dregs_eq {s t : State} (h : t.dregs = s.dregs) : SameD s t := fun r => by
  rw [State.readD, State.readD, h]

theorem readP_of_pregs_eq {s t : State} (h : t.pregs = s.pregs) : SameP s t := fun r => by
  rw [State.readP, State.readP, h]

/-- A command that ends with an error code commits nothing: of its success and its failure, only the
failure leaves a code other than 0, and the draw before it touches no register (R259). -/
theorem unchanged_of_exec_error {i : Instr} {s t : State} (h : exec i s = .next t)
    (herr : t.errcode ≠ 0#4) : SameD s t ∧ SameP s t ∧ t.flag = s.flag := by
  rcases exec_cases h with ⟨w, _, rfl⟩ | ⟨e, _, rfl⟩
  · exact absurd (completed_complete (drawState s i) (.ok w)).errcode herr
  · exact ⟨readD_of_dregs_eq (drawState_dregs s i), readP_of_pregs_eq (drawState_pregs s i),
      drawState_flag s i⟩

/-- Settles O41: every command is a completion with its result, and only a failure leaves an error
code. -/
theorem everyCommandCompletesPrecisely : Obligations.EveryCommandCompletesPrecisely := fun i s =>
  have h := exec_eq_complete i s
  ⟨_, h, completed_of_exec h, errcode_le_of_exec h, unchanged_of_exec_error h⟩

end Sys2Proof.Proofs
end

section
/-! SUPPORT. The end of a run, the state a reset leaves, and the statements on runs and resets (R280,
R281, R291, R293) settled with them. -/

namespace Sys2Proof.Proofs

open Sys2Proof.Machine Sys2Proof.Laws

/-! ### The end of a run -/

theorem isAccess_iff {e : Event} : e.isAccess = true ↔ ∃ a, e = .bus a := by
  cases e <;> simp [Event.isAccess]

/-- A run is over when no event to come is a host access and BUSY = 0 (R293). -/
theorem runOver_iff {s : State} :
    s.runOver = true ↔ (∀ a : Access, .bus a ∉ s.events) ∧ s.busy = false := by
  rw [State.runOver, Bool.and_eq_true, Bool.not_eq_true', Bool.not_eq_true', List.any_eq_false]
  refine and_congr_left fun _ => ⟨fun h a ha => h _ ha rfl, fun h e he hacc => ?_⟩
  obtain ⟨a, rfl⟩ := isAccess_iff.1 hacc
  exact h a he

/-- After its turn the engine has no command in flight (R40, R271). -/
theorem busy_of_engineTurn {s t : State} (h : s.engineTurn = .next t) : t.busy = false := by
  rcases engineTurn_cases h with ⟨hb, rfl⟩ | ⟨_, i, _, he⟩ | ⟨_, _, rfl⟩
  · exact hb
  · exact (completed_of_exec he).busy
  · rfl

/-- Within n steps the run from s is over, and its observation is that of the first state in which it
is (R293). -/
def RunEndsWithin (n : Nat) (s : State) : Prop :=
  ∃ (k : Nat) (t : State), k ≤ n ∧ core.run k s = .next t ∧ t.runOver = true ∧
    (∀ (j : Nat) (u : State), j < k → core.run j s = .next u → u.runOver = false) ∧
    State.runObservation n s = some t.observe

theorem runObservation_of_runOver {s : State} (h : s.runOver = true) (n : Nat) :
    State.runObservation n s = some s.observe := by
  cases n <;> exact if_pos h

theorem runEndsWithin_of_runOver {s : State} (h : s.runOver = true) (n : Nat) :
    RunEndsWithin n s :=
  ⟨0, s, n.zero_le, rfl, h, fun j _ hj => absurd hj j.not_lt_zero, runObservation_of_runOver h n⟩

/-- One step more than the next state needs is enough: an open run goes on from there. -/
theorem runEndsWithin_succ {n : Nat} {s t : State} (h : step s = .next t)
    (ht : RunEndsWithin n t) : RunEndsWithin (n + 1) s := by
  cases ho : s.runOver
  case true => exact runEndsWithin_of_runOver ho (n + 1)
  case false =>
    obtain ⟨k, u, hk, hrun, hover, hfirst, hobs⟩ := ht
    refine ⟨k + 1, u, Nat.succ_le_succ hk, (run_succ h k).trans hrun, hover, fun j v hj hv => ?_,
      (runObservation_succ ho h n).trans hobs⟩
    cases j with
    | zero => cases hv; exact ho
    | succ j => exact hfirst j v (Nat.lt_of_succ_lt_succ hj) ((run_succ h j).symm.trans hv)

/-- Each step takes one event away, and with none left one turn of the engine ends the command in
flight (R291). -/
theorem runEndsWithin_of_configWf {s : State} (hcfg : configWf s.cfg = true) :
    RunEndsWithin (s.events.length + 1) s := by
  induction hev : s.events generalizing s with
  | nil =>
    obtain ⟨t, hstep⟩ := step_next hcfg
    have hevents : t.events = [] := by rw [step_events hstep, hev, List.tail_nil]
    have hturn : s.engineTurn = .next t := (step_of_no_events hcfg hev).symm.trans hstep
    have hover : t.runOver = true := by
      rw [runOver_of_no_events hevents, busy_of_engineTurn hturn, Bool.not_false]
    exact runEndsWithin_succ hstep (runEndsWithin_of_runOver hover 0)
  | cons e rest ih =>
    obtain ⟨t, hstep⟩ := step_next hcfg
    have hevents : t.events = rest := by rw [step_events hstep, hev, List.tail_cons]
    have hwf : configWf t.cfg = true := by rw [step_cfg hstep, hcfg]
    exact runEndsWithin_succ hstep (ih hwf hevents)

/-- Settles O50: when a run is over, and the induction on the events still to come. -/
theorem everyRunEnds : Obligations.EveryRunEnds :=
  ⟨fun _ => runOver_iff, fun _ => runEndsWithin_of_configWf⟩

/-! ### Reset -/

/-- A reset leaves 0 in every data register (R46, R280). -/
theorem readD_resetBlock (s : State) (r : DReg) : s.resetBlock.readD r = 0#256 := by
  rw [State.readD, resetBlock_dregs, ← State.readD, readD_reset]

/-- A reset leaves INF in every point register (R46, R280). -/
theorem readP_resetBlock (s : State) (r : PReg) : s.resetBlock.readP r = .inf := by
  rw [State.readP, resetBlock_pregs, ← State.readP, readP_reset]

/-- The curve parameter registers read the same under the same configuration (R38, R280). -/
theorem windowRead_curveWord_congr {s t : State} (h : t.cfg = s.cfg) (k : Fin 6) (j : Fin 8) :
    t.windowRead (BitVec.ofNat 12 (0xC00 + 0x20 * k.val + 4 * j.val)) =
      s.windowRead (BitVec.ofNat 12 (0xC00 + 0x20 * k.val + 4 * j.val)) := by
  rw [windowRead_curveWord, windowRead_curveWord, h]

/-- Settles O51: the step is the reset of the block, whose registers hold R46's values. -/
theorem hardwareReset : Obligations.HardwareReset := by
  intro s rest hcfg hev
  exact ⟨_, step_of_hardReset hcfg hev, readD_resetBlock _, readP_resetBlock _, rfl, rfl, rfl, rfl,
    rfl, rfl, rfl, rfl, windowRead_id _, windowRead_curveWord_congr rfl⟩

/-- A write of SRST is a reset, whatever its other bits are (R281). -/
theorem windowWrite_srst (s : State) {v : BusWord} (hv : v.getLsbD 1 = true) :
    s.windowWrite 0x004#12 v = s.resetBlock := by
  rw [windowWrite_ctrl, State.writeCtrl, if_pos hv]

/-- A host access that ends a command in flight is a soft reset: every other one leaves BUSY = 1
(R80, R281). -/
theorem isSoftReset_of_abandoned {s : State} {a : Access} (hb : s.busy = true)
    (hend : (s.busAccess a).busy = false) : isSoftReset s.cfg a = true := by
  by_contra ha
  obtain ⟨_, _, _, _, _, _, hbusy, _⟩ :=
    commandInFlightIsUndisturbed s a hb (Bool.eq_false_iff.2 ha)
  exact Bool.false_ne_true (hend.symm.trans hbusy)

/-- SRST reads 0 (R33, R281). -/
theorem getLsbD_windowRead_srst (s : State) : (s.windowRead 0x004#12).getLsbD 1 = false := by
  rw [windowRead_ctrl, BitVec.getLsbD_append]
  simp

/-- Settles O52: the branch of the CTRL write that resets, and the one access that ends a command in
flight. -/
theorem softReset : Obligations.SoftReset := by
  refine ⟨fun s v hv => ?_, fun _ _ => isSoftReset_of_abandoned, getLsbD_windowRead_srst⟩
  rw [windowWrite_srst s hv]
  exact ⟨rfl, resetBlock_ie s⟩

end Sys2Proof.Proofs
end
